-- ==== Sys2Proof/Word.lean ====
section
/-! DEFINITION. The machine's widths: 16-bit words (registers, PC, cells, addresses), 8-bit console characters,
register numbers (spec/00_scope.md R5, spec/10_state.md R20). -/

namespace Sys2Proof

/-- A 16-bit word: the content of a register or of a memory cell, and an address (R5, R7). -/
abbrev Word := BitVec 16

/-- An 8-bit console character (R13). -/
abbrev Byte := BitVec 8

/-- The number of a general register; every 3-bit value names one (R20). -/
abbrev RegIdx := Fin 8

end Sys2Proof
end

