-- ==== Sys2Proof/Config.lean ====
section
/-! DEFINITION. The parameters of the machine (spec/00_scope.md R6) as a structure.
Their default values stand in Machine/Params.lean. -/

namespace Sys2Proof

/-- The parameters of R6 that a run uses. A machine state carries one value of this type and no step changes it, so a
statement about every state is a statement about every choice of the parameters (log 26). -/
structure Config where
  /-- `PC_START`, the entry point (R6, R171). -/
  pcStart : Word
  /-- `KBD_STATUS_ADDR`, the cell whose device-aware read polls the keyboard (R6, R45). -/
  kbdStatusAddr : Word
  /-- `KBD_DATA_ADDR`, the cell that receives the polled character (R6, R45). -/
  kbdDataAddr : Word
  /-- `IN_PROMPT`, what IN writes before it reads (R6, R125). -/
  inPrompt : List Byte
  /-- `HALT_NOTICE`, what HALT writes (R6, R127). -/
  haltNotice : List Byte
  deriving DecidableEq, Repr

/-- R6: `KBD_DATA_ADDR` is an address "different from `KBD_STATUS_ADDR`". -/
def Config.wf (c : Config) : Bool := c.kbdStatusAddr != c.kbdDataAddr

end Sys2Proof
end

