-- ==== Sys2Proof/Machine/Types.lean ====
section
/-! DEFINITION. The types of the pieces of machine state: condition, run state, fatal record, memory, console events,
environment moves. -/

namespace Sys2Proof.Machine

/-- The condition register: "exactly one of POS | ZERO | NEG at all times" (spec/10_state.md R24). -/
inductive Cond where
  | pos | zero | neg
  deriving DecidableEq, Repr

/-- The run state (R26). Only `running` has a step; the other three are left only by reset. -/
inductive RunState where
  /-- The machine executes. -/
  | running
  /-- The normal stop, reached by the HALT service alone (R127, R154). -/
  | halted
  /-- The fatal stop (R153). -/
  | fatal
  /-- The stop that the host's cancellation request causes (R155). -/
  | cancelled
  deriving DecidableEq, Repr

/-- The two fatal causes (spec/60_exceptions.md R151). -/
inductive FatalKind where
  /-- F1: raised by RTI and RES. Safe: the run is never a normal end. -/
  | reservedOpcode
  /-- F2: raised by TRAP with a vector outside the six. Safe: the run is never a normal end (log 7). -/
  | illegalTrapVector
  deriving DecidableEq, Repr

/-- The record of a fatal stop, an output for the host (R153). -/
structure FatalCause where
  kind : FatalKind
  /-- The offending instruction word. -/
  ir : Word
  deriving DecidableEq, Repr

/-- The memory array: pairs of an address and the 16-bit cell there, addresses strictly rising, no cell that holds the
value an unlisted address reads as (R40; the canonical form is `Memory.wf` of Machine/Ops.lean; log 1). -/
abbrev Memory := List (Nat × Word)

/-- One event of the console output log (R14). -/
inductive ConEvent where
  /-- `ConsoleWrite(b)`. -/
  | write (b : Byte)
  /-- `ConsoleFlush()`. -/
  | flush
  deriving DecidableEq, Repr

/-- What the environment does before one step: the bytes the console makes available and whether the host requests
cancellation (R14, R15, R155; log 15). -/
structure EnvMove where
  arrive : List Byte
  cancel : Bool
  deriving DecidableEq, Repr

end Sys2Proof.Machine
end

