-- ==== Sys2Proof/Machine/Params.lean ====
section
/-! DEFINITION. The default values of the parameters (spec/00_scope.md R6) and the value of COND at reset. -/

namespace Sys2Proof.Machine

/-- The 19 ASCII bytes of the default prompt (R6; log 13). -/
def defaultInPrompt : List Byte :=
  [0x45#8, 0x6E#8, 0x74#8, 0x65#8, 0x72#8, 0x20#8, 0x61#8, 0x20#8, 0x63#8, 0x68#8, 0x61#8, 0x72#8, 0x61#8, 0x63#8,
   0x74#8, 0x65#8, 0x72#8, 0x3A#8, 0x20#8]

/-- `H`, `A`, `L`, `T`, line feed (R6; log 13). -/
def defaultHaltNotice : List Byte := [0x48#8, 0x41#8, 0x4C#8, 0x54#8, 0x0A#8]

/-- The defaults of R6; the device addresses are PRESUMED by the spec (log 5). -/
def defaultConfig : Config where
  pcStart := 0x3000#16
  kbdStatusAddr := 0xFE00#16
  kbdDataAddr := 0xFE02#16
  inPrompt := defaultInPrompt
  haltNotice := defaultHaltNotice

/-- COND after reset (spec/10_state.md R32, decision D8; log 8). -/
def resetCond : Cond := .zero

end Sys2Proof.Machine
end

