-- ==== Sys2Proof/Machine/State.lean ====
section
/-! DEFINITION. The machine's state as plain data, the state after reset, and the reasons a step could stop. -/

namespace Sys2Proof.Machine

/-- Everything the spec gives the machine (spec/10_state.md, spec/00_scope.md R14 and R15, spec/60_exceptions.md R153),
and the model's own fields `waiting`, `env`, `pollEnv` and `cfg`. -/
structure State where
  /-- `R0`..`R7` (R20). -/
  regs : Vector Word 8
  /-- The program counter (R22). -/
  pc : Word
  /-- The condition register (R24). -/
  cond : Cond
  /-- The run state (R26). -/
  run : RunState
  /-- The record of a fatal stop (R153). -/
  fatalCause : Option FatalCause
  /-- The memory array, the two device cells among it (R28, R40). -/
  mem : Memory
  /-- The console's pending input, oldest first (R14, R29). -/
  conIn : List Byte
  /-- The console output log, oldest first (R14). -/
  conOut : List ConEvent
  /-- The host's cancellation request (R15, R155). -/
  cancel : Bool
  /-- A GETC or IN has begun and is held for want of a character (R156); the model's own field (log 16). -/
  waiting : Bool
  /-- The environment's moves still to come, one before each step, soonest first; the model's own field (log 15). -/
  env : List EnvMove
  /-- The bytes that arrive inside a step, one entry just before each keyboard poll, soonest first; the model's own field
  (log 31). -/
  pollEnv : List (List Byte)
  /-- The parameters of R6, which no step changes; the model's own field (log 26). -/
  cfg : Config
  deriving DecidableEq, Repr

/-- Reasons for which a step could stop outside the machine's own stops. There are none: "there are no addressing or
arithmetic exceptions inside the core" (R51, R151), and the fatal stop of R153 is a state of the machine (log 20). -/
inductive Fault where
  deriving DecidableEq, Repr

/-- Reasons for which the model gives no meaning. -/
inductive Refusal where
  /-- An instruction without a meaning yet, by its mnemonic: raised by no arm of `exec`. Safe: nothing can be proved of
  a run past it. -/
  | notModelled (mnemonic : String)
  deriving DecidableEq, Repr

/-- What an instruction or a step answers. -/
abbrev Result := Host.Outcome State Fault Refusal

/-- The machine right after reset, no image loaded (R32, R170, R171): registers and memory zero, PC at `PC_START`, COND
ZERO, running, nothing recorded. The environment's fields are empty (log 15, log 16, log 31). -/
def State.reset : State where
  regs := #v[0#16, 0#16, 0#16, 0#16, 0#16, 0#16, 0#16, 0#16]
  pc := defaultConfig.pcStart
  cond := resetCond
  run := .running
  fatalCause := none
  mem := []
  conIn := []
  conOut := []
  cancel := false
  waiting := false
  env := []
  pollEnv := []
  cfg := defaultConfig

end Sys2Proof.Machine
end

