-- ==== Sys2Proof/Machine/Ops.lean ====
section
/-! DEFINITION. The named operations over memory, registers, the console and the run state: the primitives of
spec/00_scope.md R10. -/

namespace Sys2Proof.Machine

/-! ### Memory -/

/-- What an address that is not listed reads as: memory is zero at reset (spec/10_state.md R32; log 28). -/
def Memory.unlisted : Word := 0#16

/-- The stored cell at an address. -/
def Memory.read : Memory → Nat → Word
  | [], _ => Memory.unlisted
  | (b, w) :: m, a => if a = b then w else Memory.read m a

/-- List a cell at its place in the rising order. -/
def Memory.insert : Memory → Nat → Word → Memory
  | [], a, v => [(a, v)]
  | (b, w) :: m, a, v => if a < b then (a, v) :: (b, w) :: m else (b, w) :: Memory.insert m a v

/-- Store a cell: whatever was listed at the address goes, and the new value is listed unless an unlisted address
already reads as it. -/
def Memory.write (m : Memory) (a : Nat) (v : Word) : Memory :=
  let rest := m.filter fun c => c.1 != a
  if v = Memory.unlisted then rest else Memory.insert rest a v

/-- The canonical form from address `lo` on. -/
def Memory.wfFrom : Nat → Memory → Bool
  | _, [] => true
  | lo, (a, v) :: m => decide (lo ≤ a) && decide (a < 65536) && v != Memory.unlisted && Memory.wfFrom (a + 1) m

/-- The canonical form: addresses strictly rising and below 65536 (R40), no listed cell that reads as an unlisted one. -/
def Memory.wf (m : Memory) : Bool := Memory.wfFrom 0 m

/-! ### Registers -/

/-- `x[i]` (R20). -/
def State.reg (s : State) (i : RegIdx) : Word := s.regs.get i

/-- `x[i] <- v` (R20): all eight registers are writable. -/
def State.setReg (s : State) (i : RegIdx) (v : Word) : State := { s with regs := s.regs.set i v }

/-- `pc <- v` (R22). -/
def State.setPc (s : State) (v : Word) : State := { s with pc := v }

/-- `cond <- c` (R24). -/
def State.setCond (s : State) (c : Cond) : State := { s with cond := c }

/-! ### Memory access -/

/-- `MemPeek(a)` (spec/20_memory.md R44): the stored cell, no device action at any address. -/
def State.memPeek (s : State) (a : Word) : Word := Memory.read s.mem a.toNat

/-- `MemWrite(a, 1, v)` (R43): an unconditional store, no device action at any address. -/
def State.memWrite (s : State) (a : Word) (v : Word) : State := { s with mem := Memory.write s.mem a.toNat v }

/-! ### Console -/

/-- `ConsolePoll()` (R13, R14): whether a character is pending. -/
def State.consolePoll (s : State) : Bool := !s.conIn.isEmpty

/-- `ConsoleRead()` (R13, R14): the next character and the state without it, or nothing while none is pending. -/
def State.consoleRead (s : State) : Option (Byte × State) :=
  match s.conIn with
  | [] => none
  | c :: rest => some (c, { s with conIn := rest })

/-- `ConsoleWrite(b)` for each byte in order (R13, R14). -/
def State.consoleWrite (s : State) (bs : List Byte) : State := { s with conOut := s.conOut ++ bs.map ConEvent.write }

/-- `ConsoleFlush()` (R13, R14). -/
def State.consoleFlush (s : State) : State := { s with conOut := s.conOut ++ [ConEvent.flush] }

/-! ### The keyboard device -/

/-- `zext_16` of a console character (R9; log 22). -/
def zextByte (c : Byte) : Word := c.setWidth 16

/-- The value of `KBD_STATUS` when a character was found: bit 15 set (spec/10_state.md R28). -/
def kbdReady : Word := 0x8000#16

/-- What arrives inside a step before its next keyboard poll joins the pending input (R14; spec/92_eei_decisions.md D21;
log 31). With no entry left, nothing arrives there. -/
def State.admitPoll (s : State) : State :=
  match s.pollEnv with
  | [] => s
  | bs :: rest => { s with conIn := s.conIn ++ bs, pollEnv := rest }

/-- `KbdPoll()` (R45). Nothing arrives between its query and its read (D21). -/
def State.kbdPoll (s : State) : State :=
  let e := s.admitPoll
  match e.consoleRead with
  | some (c, t) => (t.memWrite t.cfg.kbdStatusAddr kbdReady).memWrite t.cfg.kbdDataAddr (zextByte c)
  | none => e.memWrite e.cfg.kbdStatusAddr 0#16

/-- `MemRead(a, 1)` (R42): the cell at `a`, after a keyboard poll where `a` is `KBD_STATUS_ADDR`. -/
def State.memRead (s : State) (a : Word) : Word × State :=
  let t := if a = s.cfg.kbdStatusAddr then s.kbdPoll else s
  (t.memPeek a, t)

/-! ### Stops and holds -/

/-- `raise Fatal(cause, ir)` (spec/60_exceptions.md R153): the one entry into the fatal stop. It saves nothing else and
goes nowhere; there is no return from it (R159). -/
def State.raiseFatal (s : State) (kind : FatalKind) (ir : Word) : State :=
  { s with fatalCause := some ⟨kind, ir⟩, run := .fatal }

/-- `run <- HALTED` (spec/44_trap.md R127). -/
def State.haltRun (s : State) : State := { s with run := .halted }

/-- The step of a GETC or IN that finds no character has not completed (R156): the machine stands before the
instruction again, as it was before the fetch, and is marked as waiting (log 14, log 16). -/
def State.hold (s : State) : State := { s with pc := s.pc - 1#16, waiting := true }

end Sys2Proof.Machine
end

