-- ==== Sys2Proof/Machine/Flags.lean ====
section
/-! DEFINITION. The condition register: its derivation `SetCC` (spec/10_state.md R25) and its use by BR (R66). -/

namespace Sys2Proof.Machine

/-- The condition that a value gives (R25). -/
def condOf (v : Word) : Cond :=
  if v = 0#16 then .zero else if v[15] then .neg else .pos

/-- `SetCC(i)` (R25): from the current value of register `i`. -/
def State.setCC (s : State) (i : RegIdx) : State := s.setCond (condOf (s.reg i))

/-- `x[DR] <- v; SetCC(DR)`: how ADD, AND, NOT, LD, LDI, LDR and LEA end (R25). -/
def State.writeDR (s : State) (dr : RegIdx) (v : Word) : State := (s.setReg dr v).setCC dr

/-- The one-hot form of COND (R24; log 4). -/
def condBits : Cond → BitVec 3
  | .pos => 0b001#3
  | .zero => 0b010#3
  | .neg => 0b100#3

/-- `condition_mask & COND != 0` (R66). -/
def branchTaken (mask : BitVec 3) (c : Cond) : Bool := mask &&& condBits c != 0#3

end Sys2Proof.Machine
end

