-- ==== Sys2Proof/Machine/Operands.lean ====
section
/-! DEFINITION. The operand forms: sign extension and the effective addresses (spec/30_encoding.md R63,
spec/42_load.md R100). -/

namespace Sys2Proof.Machine

/-- `sext_16(f)` (spec/00_scope.md R9). -/
def sext16 {n : Nat} (f : BitVec n) : Word := f.signExtend 16

/-- PC-relative: `(pc + sext_16(offset)) mod 2^16` with `pc` the incremented PC (R100, R90). -/
def State.pcRel {n : Nat} (s : State) (off : BitVec n) : Word := s.pc + sext16 off

/-- Base + offset: `(x[BaseR] + sext_16(offset6)) mod 2^16` (R100). -/
def State.baseRel (s : State) (base : RegIdx) (off : BitVec 6) : Word := s.reg base + sext16 off

/-- Indirect: the cell at the PC-relative address holds the address; its read is device-aware (R100, R46). -/
def State.indirect (s : State) (off : BitVec 9) : Word × State := s.memRead (s.pcRel off)

end Sys2Proof.Machine
end

