-- ==== Sys2Proof/Machine/Alu.lean ====
section
/-! DEFINITION. ADD, AND, NOT (spec/40_alu.md). -/

namespace Sys2Proof.Machine

/-- ADD, register form (R81): addition modulo 2^16 (90_conflicts.md C3). -/
def execAddReg (dr sr1 sr2 : RegIdx) (s : State) : Result := .next (s.writeDR dr (s.reg sr1 + s.reg sr2))

/-- ADD, immediate form (R82). -/
def execAddImm (dr sr1 : RegIdx) (imm : BitVec 5) (s : State) : Result := .next (s.writeDR dr (s.reg sr1 + sext16 imm))

/-- AND, register form (R83). -/
def execAndReg (dr sr1 sr2 : RegIdx) (s : State) : Result := .next (s.writeDR dr (s.reg sr1 &&& s.reg sr2))

/-- AND, immediate form (R84). -/
def execAndImm (dr sr1 : RegIdx) (imm : BitVec 5) (s : State) : Result := .next (s.writeDR dr (s.reg sr1 &&& sext16 imm))

/-- NOT (R85). -/
def execNot (dr sr : RegIdx) (s : State) : Result := .next (s.writeDR dr (~~~ s.reg sr))

end Sys2Proof.Machine
end

