-- ==== Sys2Proof/Machine/Control.lean ====
section
/-! DEFINITION. BR, JMP, JSR, JSRR (spec/41_control.md). On entry `pc` is the incremented PC (R90). -/

namespace Sys2Proof.Machine

/-- The register that JSR and JSRR link through (spec/10_state.md R21). -/
def linkReg : RegIdx := 7

/-- BR (R91). -/
def execBr (mask : BitVec 3) (off : BitVec 9) (s : State) : Result :=
  .next (if branchTaken mask s.cond then s.setPc (s.pcRel off) else s)

/-- JMP (R92). -/
def execJmp (base : RegIdx) (s : State) : Result := .next (s.setPc (s.reg base))

/-- The link: `x[7] <- pc` (R93, R94). -/
def State.link (s : State) : State := s.setReg linkReg s.pc

/-- JSR (R93): the link, then the PC-relative target. -/
def execJsr (off : BitVec 11) (s : State) : Result :=
  let t := s.link
  .next (t.setPc (t.pcRel off))

/-- JSRR (R94): the link first, the base register read afterwards (log 25). -/
def execJsrr (base : RegIdx) (s : State) : Result :=
  let t := s.link
  .next (t.setPc (t.reg base))

end Sys2Proof.Machine
end

