-- ==== Sys2Proof/Machine/Load.lean ====
section
/-! DEFINITION. LD, LDI, LDR, LEA (spec/42_load.md). -/

namespace Sys2Proof.Machine

/-- `x[DR] <- MemRead(ea, 1); SetCC(DR)`. -/
def State.loadInto (s : State) (dr : RegIdx) (ea : Word) : State :=
  let (v, t) := s.memRead ea
  t.writeDR dr v

/-- LD (R101). -/
def execLd (dr : RegIdx) (off : BitVec 9) (s : State) : Result := .next (s.loadInto dr (s.pcRel off))

/-- LDI (R102): the pointer read, then the data read, both device-aware (log 11). -/
def execLdi (dr : RegIdx) (off : BitVec 9) (s : State) : Result :=
  let (ea, t) := s.indirect off
  .next (t.loadInto dr ea)

/-- LDR (R103). -/
def execLdr (dr base : RegIdx) (off : BitVec 6) (s : State) : Result := .next (s.loadInto dr (s.baseRel base off))

/-- LEA (R104): the address itself, no access; it does set COND. -/
def execLea (dr : RegIdx) (off : BitVec 9) (s : State) : Result := .next (s.writeDR dr (s.pcRel off))

end Sys2Proof.Machine
end

