-- ==== Sys2Proof/Syntax.lean ====
section
/-! DEFINITION. The instructions, one constructor for each row of spec/opcode_table.json. Operand fields are those of
spec/30_encoding.md R61 and R62; bits that R69 calls ignored are no operand, but for the three rows whose meaning
records the whole instruction word (R153). -/

namespace Sys2Proof

/-- The sixteen opcode values by name (R65). -/
inductive Opcode where
  | br | add | ld | st | jsr | and | ldr | str | rti | not | ldi | sti | jmp | res | lea | trap
  deriving DecidableEq, Repr

/-- One constructor for each row of the opcode table. -/
inductive Instr where
  /-- BR (R91): the condition mask `n z p` and `PCoffset9`. -/
  | br (mask : BitVec 3) (off : BitVec 9)
  /-- ADD, register form (R81). -/
  | addReg (dr sr1 sr2 : RegIdx)
  /-- ADD, immediate form (R82). -/
  | addImm (dr sr1 : RegIdx) (imm : BitVec 5)
  /-- LD (R101). -/
  | ld (dr : RegIdx) (off : BitVec 9)
  /-- ST (R111). -/
  | st (sr : RegIdx) (off : BitVec 9)
  /-- JSRR (R94). -/
  | jsrr (base : RegIdx)
  /-- JSR (R93). -/
  | jsr (off : BitVec 11)
  /-- AND, register form (R83). -/
  | andReg (dr sr1 sr2 : RegIdx)
  /-- AND, immediate form (R84). -/
  | andImm (dr sr1 : RegIdx) (imm : BitVec 5)
  /-- LDR (R103). -/
  | ldr (dr base : RegIdx) (off : BitVec 6)
  /-- STR (R113). -/
  | str (sr base : RegIdx) (off : BitVec 6)
  /-- RTI (R141): bits 11:0 select nothing and are kept for the fatal record. -/
  | rti (low : BitVec 12)
  /-- NOT (R85). -/
  | not (dr sr : RegIdx)
  /-- LDI (R102). -/
  | ldi (dr : RegIdx) (off : BitVec 9)
  /-- STI (R112). -/
  | sti (sr : RegIdx) (off : BitVec 9)
  /-- JMP (R92). -/
  | jmp (base : RegIdx)
  /-- RES, the reserved opcode (R142): bits 11:0 select nothing and are kept for the fatal record. -/
  | res (low : BitVec 12)
  /-- LEA (R104). -/
  | lea (dr : RegIdx) (off : BitVec 9)
  /-- TRAP x20, GETC (R122). -/
  | trapGetc
  /-- TRAP x21, OUT (R123). -/
  | trapOut
  /-- TRAP x22, PUTS (R124). -/
  | trapPuts
  /-- TRAP x23, IN (R125). -/
  | trapIn
  /-- TRAP x24, PUTSP (R126). -/
  | trapPutsp
  /-- TRAP x25, HALT (R127). -/
  | trapHalt
  /-- TRAP with a vector outside the six (R128): bits 11:8 select nothing and are kept, with the vector, for the fatal
  record. -/
  | trapUndefined (ignored : BitVec 4) (vec : BitVec 8)
  deriving DecidableEq, Repr

end Sys2Proof
end

