-- ==== Sys2Proof/WellFormed.lean ====
section
/-! DEFINITION. Which instructions are well formed. Every field has exactly its width in its type, so one check is left:
the fallback row of the opcode table applies only to a vector that no service has (spec/30_encoding.md R67). -/

namespace Sys2Proof

/-- The six vectors that select a service (R67). -/
def isServiceVector (vec : BitVec 8) : Bool := 0x20#8 ≤ vec && vec ≤ 0x25#8

/-- An instruction that some word decodes to. -/
def Instr.wf : Instr → Bool
  | .br _ _ => true
  | .addReg _ _ _ => true
  | .addImm _ _ _ => true
  | .ld _ _ => true
  | .st _ _ => true
  | .jsrr _ => true
  | .jsr _ => true
  | .andReg _ _ _ => true
  | .andImm _ _ _ => true
  | .ldr _ _ _ => true
  | .str _ _ _ => true
  | .rti _ => true
  | .not _ _ => true
  | .ldi _ _ => true
  | .sti _ _ => true
  | .jmp _ => true
  | .res _ => true
  | .lea _ _ => true
  | .trapGetc => true
  | .trapOut => true
  | .trapPuts => true
  | .trapIn => true
  | .trapPutsp => true
  | .trapHalt => true
  | .trapUndefined _ vec => !isServiceVector vec

end Sys2Proof
end

