-- ==== Sys2Proof/Decode.lean ====
section
/-! DEFINITION. The decoder, total on every 16-bit word (spec/30_encoding.md R68), and the encoder beside it.
The opcode numbers are R65 (log 2), the field positions and form flags R61, R62, R64 (log 3), the trap vectors R67
(log 6). -/

namespace Sys2Proof

/-- The opcode that bits 15:12 select (R65); all sixteen values are assigned. -/
def opcodeOf (w : Word) : Opcode :=
  match w[15], w[14], w[13], w[12] with
  | false, false, false, false => .br
  | false, false, false, true  => .add
  | false, false, true,  false => .ld
  | false, false, true,  true  => .st
  | false, true,  false, false => .jsr
  | false, true,  false, true  => .and
  | false, true,  true,  false => .ldr
  | false, true,  true,  true  => .str
  | true,  false, false, false => .rti
  | true,  false, false, true  => .not
  | true,  false, true,  false => .ldi
  | true,  false, true,  true  => .sti
  | true,  true,  false, false => .jmp
  | true,  true,  false, true  => .res
  | true,  true,  true,  false => .lea
  | true,  true,  true,  true  => .trap

/-- The field of `n` bits whose lowest bit is bit `lo` (R7). -/
def field (w : Word) (lo n : Nat) : BitVec n := w.extractLsb' lo n

/-- The 3-bit register field whose lowest bit is bit `lo` (R61). -/
def regField (w : Word) (lo : Nat) : RegIdx := (field w lo 3).toFin

/-- The trap dispatcher's selection by bits 7:0 (R67, R120). -/
def decodeTrap (w : Word) : Instr :=
  let vec := field w 0 8
  if vec = 0x20#8 then .trapGetc
  else if vec = 0x21#8 then .trapOut
  else if vec = 0x22#8 then .trapPuts
  else if vec = 0x23#8 then .trapIn
  else if vec = 0x24#8 then .trapPutsp
  else if vec = 0x25#8 then .trapHalt
  else .trapUndefined (field w 8 4) vec

/-- Decoding (R68): the opcode, then the form bit of ADD and AND (`ir[5]`), of JSR and JSRR (`ir[11]`), or the vector
of TRAP (R64, R67). Bits that R69 calls ignored are not read. -/
def decode (w : Word) : Instr :=
  match opcodeOf w with
  | .br => .br (field w 9 3) (field w 0 9)
  | .add =>
    if w[5] then .addImm (regField w 9) (regField w 6) (field w 0 5)
    else .addReg (regField w 9) (regField w 6) (regField w 0)
  | .ld => .ld (regField w 9) (field w 0 9)
  | .st => .st (regField w 9) (field w 0 9)
  | .jsr => if w[11] then .jsr (field w 0 11) else .jsrr (regField w 6)
  | .and =>
    if w[5] then .andImm (regField w 9) (regField w 6) (field w 0 5)
    else .andReg (regField w 9) (regField w 6) (regField w 0)
  | .ldr => .ldr (regField w 9) (regField w 6) (field w 0 6)
  | .str => .str (regField w 9) (regField w 6) (field w 0 6)
  | .rti => .rti (field w 0 12)
  | .not => .not (regField w 9) (regField w 6)
  | .ldi => .ldi (regField w 9) (field w 0 9)
  | .sti => .sti (regField w 9) (field w 0 9)
  | .jmp => .jmp (regField w 6)
  | .res => .res (field w 0 12)
  | .lea => .lea (regField w 9) (field w 0 9)
  | .trap => decodeTrap w

/-- The number of each opcode (R65). -/
def opcodeBits : Opcode → BitVec 4
  | .br   => 0b0000#4
  | .add  => 0b0001#4
  | .ld   => 0b0010#4
  | .st   => 0b0011#4
  | .jsr  => 0b0100#4
  | .and  => 0b0101#4
  | .ldr  => 0b0110#4
  | .str  => 0b0111#4
  | .rti  => 0b1000#4
  | .not  => 0b1001#4
  | .ldi  => 0b1010#4
  | .sti  => 0b1011#4
  | .jmp  => 0b1100#4
  | .res  => 0b1101#4
  | .lea  => 0b1110#4
  | .trap => 0b1111#4

/-- A register number as the 3 bits of its field (R61). -/
def regBits (r : RegIdx) : BitVec 3 := BitVec.ofFin r

/-- The opcode of an instruction (R65). -/
def Instr.opcode : Instr → Opcode
  | .br _ _ => .br
  | .addReg _ _ _ => .add
  | .addImm _ _ _ => .add
  | .ld _ _ => .ld
  | .st _ _ => .st
  | .jsrr _ => .jsr
  | .jsr _ => .jsr
  | .andReg _ _ _ => .and
  | .andImm _ _ _ => .and
  | .ldr _ _ _ => .ldr
  | .str _ _ _ => .str
  | .rti _ => .rti
  | .not _ _ => .not
  | .ldi _ _ => .ldi
  | .sti _ _ => .sti
  | .jmp _ => .jmp
  | .res _ => .res
  | .lea _ _ => .lea
  | .trapGetc => .trap
  | .trapOut => .trap
  | .trapPuts => .trap
  | .trapIn => .trap
  | .trapPutsp => .trap
  | .trapHalt => .trap
  | .trapUndefined _ _ => .trap

/-- Bits 11:0 of an instruction, from the formats of R62; ignored bits take the canonical values of R69 (0, and 1 in
bits 5:0 of NOT). -/
def operandBits : Instr → BitVec 12
  | .br mask off => mask ++ off
  | .addReg dr sr1 sr2 => regBits dr ++ regBits sr1 ++ 0b000#3 ++ regBits sr2
  | .addImm dr sr1 imm => regBits dr ++ regBits sr1 ++ 0b1#1 ++ imm
  | .ld dr off => regBits dr ++ off
  | .st sr off => regBits sr ++ off
  | .jsrr base => 0b000#3 ++ regBits base ++ 0b000000#6
  | .jsr off => 0b1#1 ++ off
  | .andReg dr sr1 sr2 => regBits dr ++ regBits sr1 ++ 0b000#3 ++ regBits sr2
  | .andImm dr sr1 imm => regBits dr ++ regBits sr1 ++ 0b1#1 ++ imm
  | .ldr dr base off => regBits dr ++ regBits base ++ off
  | .str sr base off => regBits sr ++ regBits base ++ off
  | .rti low => low
  | .not dr sr => regBits dr ++ regBits sr ++ 0b111111#6
  | .ldi dr off => regBits dr ++ off
  | .sti sr off => regBits sr ++ off
  | .jmp base => 0b000#3 ++ regBits base ++ 0b000000#6
  | .res low => low
  | .lea dr off => regBits dr ++ off
  | .trapGetc => 0x020#12
  | .trapOut => 0x021#12
  | .trapPuts => 0x022#12
  | .trapIn => 0x023#12
  | .trapPutsp => 0x024#12
  | .trapHalt => 0x025#12
  | .trapUndefined ignored vec => ignored ++ vec

/-- The word of an instruction: the opcode in the top 4 bits (R60), the operands below. -/
def encode (i : Instr) : Word := opcodeBits i.opcode ++ operandBits i

/-- What the decoder reads from a word of the opcode table: one instruction is one 16-bit word (R60), and a row shorter
than that leaves the bits above it 0. A number that no 16-bit word has is refused. -/
def decodeTableWord (nbits w : Nat) : Option Instr :=
  if nbits ≤ 16 ∧ w < 2 ^ 16 then some (decode (BitVec.ofNat 16 w)) else none

end Sys2Proof
end

