-- ==== Sys2Proof/Machine/Reserved.lean ====
section
/-! DEFINITION. The fatal opcodes RTI and RES (spec/45_reserved.md). The record holds the whole word (R153). -/

namespace Sys2Proof.Machine

/-- RTI (R141). -/
def execRti (low : BitVec 12) (s : State) : Result := .next (s.raiseFatal .reservedOpcode (encode (.rti low)))

/-- RES (R142). -/
def execRes (low : BitVec 12) (s : State) : Result := .next (s.raiseFatal .reservedOpcode (encode (.res low)))

end Sys2Proof.Machine
end

