-- ==== Sys2Proof/Machine/Store.lean ====
section
/-! DEFINITION. ST, STI, STR (spec/43_store.md). -/

namespace Sys2Proof.Machine

/-- ST (R111). -/
def execSt (sr : RegIdx) (off : BitVec 9) (s : State) : Result := .next (s.memWrite (s.pcRel off) (s.reg sr))

/-- STI (R112): the pointer read, device-aware (log 11), then the store. -/
def execSti (sr : RegIdx) (off : BitVec 9) (s : State) : Result :=
  let (ea, t) := s.indirect off
  .next (t.memWrite ea (t.reg sr))

/-- STR (R113). -/
def execStr (sr base : RegIdx) (off : BitVec 6) (s : State) : Result :=
  .next (s.memWrite (s.baseRel base off) (s.reg sr))

end Sys2Proof.Machine
end

