-- ==== Sys2Proof/Machine/Trap.lean ====
section
/-! DEFINITION. The TRAP services and the undefined vector (spec/44_trap.md). A service runs inside the step of its TRAP:
it leaves `pc`, `x[7]` and COND alone (R120). -/

namespace Sys2Proof.Machine

/-- The register of the services' argument and result (spec/10_state.md R21). -/
def serviceReg : RegIdx := 0

/-- The non-zero cells from address `a` upward, at most `fuel` of them, up to and without the first zero cell. -/
def stringCells (m : Memory) : Nat → Nat → List Word
  | 0, _ => []
  | fuel + 1, a =>
    let c := Memory.read m a
    if c = 0#16 then [] else c :: stringCells m fuel (a + 1)

/-- The cells a string service walks over (R121): from the address in `x[0]` to the first zero cell or the end of
memory, by `MemPeek`, never wrapping (log 10). -/
def State.serviceString (s : State) : List Word :=
  stringCells s.mem (65536 - (s.reg serviceReg).toNat) (s.reg serviceReg).toNat

/-- Bits 7:0 of a word. -/
def lowByte (w : Word) : Byte := w.extractLsb' 0 8

/-- Bits 15:8 of a word. -/
def highByte (w : Word) : Byte := w.extractLsb' 8 8

/-- The characters PUTSP packs in a cell: the low byte, then the high byte if it is not zero (R126). -/
def packedBytes (w : Word) : List Byte := if highByte w = 0#8 then [lowByte w] else [lowByte w, highByte w]

/-- GETC (R122): held while no character is pending (R156). -/
def execTrapGetc (s : State) : Result :=
  match s.consoleRead with
  | none => .next s.hold
  | some (c, t) => .next (t.setReg serviceReg (zextByte c))

/-- OUT (R123). -/
def execTrapOut (s : State) : Result := .next (s.consoleWrite [lowByte (s.reg serviceReg)]).consoleFlush

/-- PUTS (R124): the low byte of each cell (log 12), then a flush. -/
def execTrapPuts (s : State) : Result := .next (s.consoleWrite (s.serviceString.map lowByte)).consoleFlush

/-- IN (R125): held while no character is pending, then prompt, read, echo and result at once (log 17); no flush
(log 18). -/
def execTrapIn (s : State) : Result :=
  match s.consoleRead with
  | none => .next s.hold
  | some (c, t) => .next (((t.consoleWrite t.cfg.inPrompt).consoleWrite [c]).setReg serviceReg (zextByte c))

/-- PUTSP (R126). -/
def execTrapPutsp (s : State) : Result := .next (s.consoleWrite (s.serviceString.flatMap packedBytes)).consoleFlush

/-- HALT (R127): the notice, a flush, the normal stop. -/
def execTrapHalt (s : State) : Result := .next (s.consoleWrite s.cfg.haltNotice).consoleFlush.haltRun

/-- TRAP with an undefined vector (R128; log 7): fatal, recording the whole word. -/
def execTrapUndefined (ignored : BitVec 4) (vec : BitVec 8) (s : State) : Result :=
  .next (s.raiseFatal .illegalTrapVector (encode (.trapUndefined ignored vec)))

end Sys2Proof.Machine
end

