-- ==== Sys2Proof/Machine/Fetch.lean ====
section
/-! DEFINITION. How a step begins (spec/60_exceptions.md R150): the environment's move, the cancellation test, the fetch
and the PC advance. -/

namespace Sys2Proof.Machine

/-- The environment's next move (R14, R15, R155; log 15): its bytes join the pending input, its request is kept until
the core has seen it. With no move left, nothing arrives. -/
def State.admitEnv (s : State) : State :=
  match s.env with
  | [] => s
  | m :: rest => { s with conIn := s.conIn ++ m.arrive, cancel := s.cancel || m.cancel, env := rest }

/-- `run <- CANCELLED` (R155). -/
def State.cancelRun (s : State) : State := { s with run := .cancelled }

/-- `ir <- MemRead(pc, 1); pc <- pc + 1` (R150, R23): the instruction word and the state in which it executes. -/
def State.fetch (s : State) : Word × State :=
  let (ir, t) := s.memRead s.pc
  (ir, { t with pc := t.pc + 1#16, waiting := false })

/-- What a step comes to before any instruction executes. -/
inductive StepStart where
  /-- No instruction executes in this step; the machine is then in this state. -/
  | stays (t : State)
  /-- This word was fetched, and executes in this state. -/
  | fetched (ir : Word) (t : State)

/-- The first half of `Step()` (R150). A machine that has stopped makes no step and nothing changes (log 21). The
cancellation request is tested before the fetch, but not by a step that is already under way and held (R155, R156;
log 16). -/
def startStep (s : State) : StepStart :=
  match s.run with
  | .running =>
    let e := s.admitEnv
    if e.cancel && !e.waiting then .stays e.cancelRun
    else .fetched e.fetch.1 e.fetch.2
  | .halted => .stays s
  | .fatal => .stays s
  | .cancelled => .stays s

/-- Prepare the state so that the very next step fetches and executes the word `w`: the machine runs, no cancellation
comes before the fetch, and the cell at PC holds `w`. A PC at `KBD_STATUS_ADDR` moves on by one cell, since a fetch there
overwrites the cell (R46; log 27). -/
def State.placeWord (s : State) (w : Word) : State :=
  let pc := if s.pc = s.cfg.kbdStatusAddr then s.pc + 1#16 else s.pc
  let env := match s.env with
    | [] => []
    | m :: rest => { m with cancel := false } :: rest
  { s with pc := pc, run := .running, cancel := false, env := env, mem := Memory.write s.mem pc.toNat w }

end Sys2Proof.Machine
end

