-- ==== Sys2Proof/Machine/Step.lean ====
section
/-! DEFINITION. The step of the machine (spec/60_exceptions.md R150), and how the host places an instruction where the
next step fetches. -/

namespace Sys2Proof.Machine

/-- `Step()` (R150): one instruction, from fetch to completion. -/
def step (s : State) : Host.Outcome State Fault Refusal :=
  match startStep s with
  | .stays t => .next t
  | .fetched ir t => exec (decode ir) t

/-- The state with the instruction of the bits `w` where the next step fetches (log 27). Every instruction is one 16-bit
word (R60), so the bits from 16 on hold nothing. -/
def State.withFetchWord (s : State) (nbits w : Nat) : State := s.placeWord (BitVec.ofNat 16 (w % 2 ^ min nbits 16))

end Sys2Proof.Machine
end

