-- ==== Sys2Proof/Machine/Loader.lean ====
section
/-! DEFINITION. What the external loader leaves in the machine before the first fetch
(spec/70_reset_and_hazards.md R170 to R173). -/

namespace Sys2Proof.Machine

/-- An image after conversion: its origin and its words (R172). -/
abbrev Image := Word × List Word

/-- A big-endian pair of file bytes as a word (spec/20_memory.md R47). -/
def bigEndianWord (hi lo : Byte) : Word := hi ++ lo

/-- The words of a list of bytes, two bytes a word, the high byte first; nothing for an odd number of bytes. -/
def wordsOfBytes : List Byte → Option (List Word)
  | [] => some []
  | [_] => none
  | hi :: lo :: rest => (wordsOfBytes rest).map fun ws => bigEndianWord hi lo :: ws

/-- An image from the bytes of an image file (R172): the first word is the origin. A file of an odd number of bytes or
of fewer than two is refused (U17; log 23). -/
def imageOfBytes (bs : List Byte) : Option Image :=
  match wordsOfBytes bs with
  | some (origin :: words) => some (origin, words)
  | _ => none

/-- Deposit words at consecutive addresses; words past address 65535 are dropped (R172). -/
def depositWords (m : Memory) : Nat → List Word → Memory
  | _, [] => m
  | a, w :: ws => if a < 65536 then depositWords (Memory.write m a w) (a + 1) ws else m

/-- Load one image (R172). -/
def loadImage (m : Memory) (img : Image) : Memory := depositWords m img.1.toNat img.2

/-- The machine before its first fetch (R32, R173): the reset state under the parameters `c`, the images loaded in order
into zeroed memory, PC at `PC_START`, and the input, moves and arrivals the environment holds. -/
def boot (c : Config) (images : List Image) (conIn : List Byte) (env : List EnvMove) (pollEnv : List (List Byte)) :
    State :=
  { State.reset with
    pc := c.pcStart, cfg := c, mem := images.foldl loadImage State.reset.mem, conIn := conIn, env := env,
    pollEnv := pollEnv }

end Sys2Proof.Machine
end

