-- ==== Sys2Proof/Safety.lean ====
section
/-! DEFINITION. The terms in which claims speak of a run: the machine's invariant, what "no fault" and "a normal end"
mean (spec/60_exceptions.md R153, R154). -/

namespace Sys2Proof.Machine

/-- A fatal record names a word that its cause can come from (spec/60_exceptions.md R151). -/
def FatalCause.fits (c : FatalCause) : Bool :=
  match c.kind with
  | .reservedOpcode => field c.ir 12 4 == 0x8#4 || field c.ir 12 4 == 0xD#4
  | .illegalTrapVector => field c.ir 12 4 == 0xF#4 && !isServiceVector (field c.ir 0 8)

/-- The invariant of the machine. -/
structure Inv (s : State) : Prop where
  /-- Memory is in its canonical form (R40). -/
  memWf : Memory.wf s.mem = true
  /-- The two device registers are two cells (R6). -/
  cfgWf : s.cfg.wf = true
  /-- A fatal record stands exactly in the fatal stop (R153). -/
  fatalIff : s.fatalCause.isSome = true ↔ s.run = .fatal
  /-- The record names a word that raises its cause (R151). -/
  fatalFits : ∀ c, s.fatalCause = some c → c.fits = true
  /-- A held machine runs and stands at a GETC or an IN, which no fetch at the keyboard's cell reads (R156, R46). -/
  waitingAt : s.waiting = true → s.run = .running ∧ s.pc ≠ s.cfg.kbdStatusAddr ∧
    (decode (s.memPeek s.pc) = .trapGetc ∨ decode (s.memPeek s.pc) = .trapIn)

/-- `t` is the state after `k` steps from `s`: "the run is the repetition of `Step`" (R150). -/
def After : Nat → State → State → Prop
  | 0, s, t => t = s
  | k + 1, s, t => ∃ u, step s = .next u ∧ After k u t

/-- No fault in the sense of R153: the run state does not become FATAL within `k` steps. -/
def SafeFor (k : Nat) (s : State) : Prop := ∀ j, j ≤ k → ∃ t, After j s t ∧ t.run ≠ .fatal

/-- A normal end in the sense of R154: some step leads to HALTED. -/
def EndsNormally (s : State) : Prop := ∃ k t, After k s t ∧ t.run = .halted

/-! ### Where an instruction writes -/

/-- The general register an instruction writes, if any (spec/10_state.md R21, spec/30_encoding.md R61). -/
def destReg : Instr → Option RegIdx
  | .addReg dr _ _ | .addImm dr _ _ | .andReg dr _ _ | .andImm dr _ _ | .not dr _ => some dr
  | .ld dr _ | .ldi dr _ | .ldr dr _ _ | .lea dr _ => some dr
  | .jsr _ | .jsrr _ => some 7
  | .trapGetc | .trapIn => some 0
  | .br _ _ | .jmp _ | .st _ _ | .sti _ _ | .str _ _ _ => none
  | .rti _ | .res _ | .trapOut | .trapPuts | .trapPutsp | .trapHalt | .trapUndefined _ _ => none

/-- The register from which an instruction derives COND, for the seven mnemonics that do (spec/10_state.md R25). -/
def flagReg : Instr → Option RegIdx
  | .addReg dr _ _ | .addImm dr _ _ | .andReg dr _ _ | .andImm dr _ _ | .not dr _ => some dr
  | .ld dr _ | .ldi dr _ | .ldr dr _ _ | .lea dr _ => some dr
  | .jsr _ | .jsrr _ | .trapGetc | .trapIn => none
  | .br _ _ | .jmp _ | .st _ _ | .sti _ _ | .str _ _ _ => none
  | .rti _ | .res _ | .trapOut | .trapPuts | .trapPutsp | .trapHalt | .trapUndefined _ _ => none

/-- The cell a store instruction writes, computed in the state it executes in (spec/43_store.md R110). -/
def storeTarget (i : Instr) (s : State) : Option Word :=
  match i with
  | .st _ off => some (s.pcRel off)
  | .sti _ off => some (s.indirect off).1
  | .str _ base off => some (s.baseRel base off)
  | .br _ _ | .addReg _ _ _ | .addImm _ _ _ | .ld _ _ | .jsrr _ | .jsr _ | .andReg _ _ _ | .andImm _ _ _ => none
  | .ldr _ _ _ | .rti _ | .not _ _ | .ldi _ _ | .jmp _ | .res _ | .lea _ _ => none
  | .trapGetc | .trapOut | .trapPuts | .trapIn | .trapPutsp | .trapHalt | .trapUndefined _ _ => none

/-- Whether an instruction makes a device-aware read of `KBD_STATUS_ADDR` (spec/20_memory.md R46). -/
def polls (i : Instr) (s : State) : Bool :=
  match i with
  | .ld _ off => s.pcRel off == s.cfg.kbdStatusAddr
  | .ldi _ off => s.pcRel off == s.cfg.kbdStatusAddr || (s.indirect off).1 == s.cfg.kbdStatusAddr
  | .ldr _ base off => s.baseRel base off == s.cfg.kbdStatusAddr
  | .sti _ off => s.pcRel off == s.cfg.kbdStatusAddr
  | .br _ _ | .addReg _ _ _ | .addImm _ _ _ | .st _ _ | .jsrr _ | .jsr _ | .andReg _ _ _ | .andImm _ _ _ => false
  | .str _ _ _ | .rti _ | .not _ _ | .jmp _ | .res _ | .lea _ _ => false
  | .trapGetc | .trapOut | .trapPuts | .trapIn | .trapPutsp | .trapHalt | .trapUndefined _ _ => false

/-- An instruction that reads a character from the console and can be held (spec/60_exceptions.md R156). -/
def readsConsole : Instr → Bool
  | .trapGetc | .trapIn => true
  | .br _ _ | .addReg _ _ _ | .addImm _ _ _ | .ld _ _ | .st _ _ | .jsrr _ | .jsr _ | .andReg _ _ _ => false
  | .andImm _ _ _ | .ldr _ _ _ | .str _ _ _ | .rti _ | .not _ _ | .ldi _ _ | .sti _ _ | .jmp _ | .res _ => false
  | .lea _ _ | .trapOut | .trapPuts | .trapPutsp | .trapHalt | .trapUndefined _ _ => false

/-- A service that writes to the console (spec/44_trap.md R123 to R127). -/
def writesConsole : Instr → Bool
  | .trapOut | .trapPuts | .trapIn | .trapPutsp | .trapHalt => true
  | .br _ _ | .addReg _ _ _ | .addImm _ _ _ | .ld _ _ | .st _ _ | .jsrr _ | .jsr _ | .andReg _ _ _ => false
  | .andImm _ _ _ | .ldr _ _ _ | .str _ _ _ | .rti _ | .not _ _ | .ldi _ _ | .sti _ _ | .jmp _ | .res _ => false
  | .lea _ _ | .trapGetc | .trapUndefined _ _ => false

/-- An instruction that writes PC beyond the fetch advance (spec/10_state.md R23). -/
def writesPc : Instr → Bool
  | .br _ _ | .jmp _ | .jsr _ | .jsrr _ => true
  | .addReg _ _ _ | .addImm _ _ _ | .ld _ _ | .st _ _ | .andReg _ _ _ | .andImm _ _ _ | .ldr _ _ _ => false
  | .str _ _ _ | .rti _ | .not _ _ | .ldi _ _ | .sti _ _ | .res _ | .lea _ _ => false
  | .trapGetc | .trapOut | .trapPuts | .trapIn | .trapPutsp | .trapHalt | .trapUndefined _ _ => false

/-- The bits of a word that decoding or execution reads: all but those spec/30_encoding.md R69 lists as ignored. -/
def readMask (w : Word) : Word :=
  match opcodeOf w with
  | .add | .and => if w[5] then 0xFFFF#16 else 0xFFE7#16
  | .not => 0xFFC0#16
  | .jmp => 0xF1C0#16
  | .jsr => if w[11] then 0xFFFF#16 else 0xF9C0#16
  | .trap => 0xF0FF#16
  | .rti | .res => 0xF000#16
  | .br | .ld | .st | .ldr | .str | .ldi | .sti | .lea => 0xFFFF#16

/-- The values an assembler gives to the ignored bits: 0, and 1 in bits 5:0 of NOT (spec/30_encoding.md R69). -/
def canonicalFill (w : Word) : Word := if opcodeOf w = .not then 0x003F#16 else 0x0000#16

end Sys2Proof.Machine
end

