-- ==== Sys2Proof/Certificates/Slice0/Obligations.lean ====
section
/-! DEFINITION. The statements for the provers. Each docstring names the rule of spec/ it formalises. -/

section

open Sys2Proof Sys2Proof.Machine

/-! ### Encoding -/

/-- The worked decodings of spec/95_test_vectors.md V12, and a word with ignored bits set for each form that has
ignored bits: ADD and AND register form, NOT, JMP, JSRR, TRAP, RTI, RES (D2, D3, D4, D6, D9; log 2, log 3, log 4, log
6, log 9). -/
def Obligations.WorkedWordsDecode : Prop :=
  decode 0x0000#16 = .br 0b000#3 0#9 ∧ decode 0x0BFE#16 = .br 0b101#3 0x1FE#9 ∧
  decode 0x1042#16 = .addReg 0 1 2 ∧ decode 0x1FFF#16 = .addImm 7 7 0x1F#5 ∧
  decode 0x2A04#16 = .ld 5 4#9 ∧ decode 0x3804#16 = .st 4 4#9 ∧
  decode 0x4803#16 = .jsr 3#11 ∧ decode 0x40C0#16 = .jsrr 3 ∧
  decode 0x5020#16 = .andImm 0 0 0#5 ∧ decode 0x5401#16 = .andReg 2 0 1 ∧
  decode 0x6680#16 = .ldr 3 2 0#6 ∧ decode 0x7681#16 = .str 3 2 1#6 ∧
  decode 0x8000#16 = .rti 0#12 ∧ decode 0x96FF#16 = .not 3 3 ∧
  decode 0xA806#16 = .ldi 4 6#9 ∧ decode 0xB605#16 = .sti 3 5#9 ∧
  decode 0xC1C0#16 = .jmp 7 ∧ decode 0xD000#16 = .res 0#12 ∧
  decode 0xE201#16 = .lea 1 1#9 ∧ decode 0xE409#16 = .lea 2 9#9 ∧
  decode 0xF020#16 = .trapGetc ∧ decode 0xF021#16 = .trapOut ∧ decode 0xF022#16 = .trapPuts ∧
  decode 0xF023#16 = .trapIn ∧ decode 0xF024#16 = .trapPutsp ∧ decode 0xF025#16 = .trapHalt ∧
  decode 0xF0FF#16 = .trapUndefined 0#4 0xFF#8 ∧
  decode 0x1419#16 = .addReg 2 0 1 ∧ decode 0x9E00#16 = .not 7 0 ∧ decode 0xCE80#16 = .jmp 2 ∧
  decode 0x5419#16 = .andReg 2 0 1 ∧ decode 0x46C0#16 = .jsrr 3 ∧
  decode 0xFF25#16 = .trapHalt ∧ decode 0x8FFF#16 = .rti 0xFFF#12 ∧ decode 0xD123#16 = .res 0x123#12

/-- Decoding the encoding of a well-formed instruction gives it back, every operand at every value (R62, R68;
D2, D3, D6, log 2, log 3, log 6). -/
def Obligations.DecodeOfEncodeIsTheInstruction : Prop :=
  ∀ i : Instr, i.wf = true → decode (encode i) = i

/-- Every 16-bit word decodes to a well-formed instruction whose opcode is the number in its top four bits (R68, R65;
the numbers are D2, log 2). -/
def Obligations.EveryWordDecodesByItsTopBits : Prop :=
  ∀ w : Word, (decode w).wf = true ∧ opcodeBits (decode w).opcode = w.extractLsb' 12 4

/-- Two words that agree on the bits that are read execute alike from every state (R69; log 9: the spec's own decision
D9); the fatal record alone, which holds the whole word (R153), can tell them apart. -/
def Obligations.IgnoredBitsChangeNothing : Prop :=
  ∀ (w w' : Word) (s : State), w &&& readMask w = w' &&& readMask w →
    ∃ t t', exec (decode w) s = .next t ∧ exec (decode w') s = .next t' ∧
      t' = { t with fatalCause := t'.fatalCause } ∧ t'.fatalCause.map (·.kind) = t.fatalCause.map (·.kind)

/-- Encoding what a word decodes to gives the word back, its ignored bits at the values an assembler emits (R69), but for
RTI, RES and the undefined vectors, whose ignored bits the model keeps for the fatal record (log 9). -/
def Obligations.EncodeOfDecodeIsTheCanonicalWord : Prop :=
  ∀ w : Word, opcodeOf w ≠ .rti → opcodeOf w ≠ .res →
    (opcodeOf w = .trap → isServiceVector (w.extractLsb' 0 8) = true) →
    encode (decode w) = (w &&& readMask w) ||| canonicalFill w

/-! ### The step -/

/-- A running machine that no cancellation stops executes, in the state after the fetch and the PC advance, what the
word at PC decodes to (R150). Away from `KBD_STATUS_ADDR` the word is the stored cell and the fetch has no other
effect. That the fetch is the device-aware read is the spec's decision D11 (log 11); the environment's move, the mark
`waiting`, and that a held GETC or IN is not stopped by a request are the model's (log 15, log 16). -/
def Obligations.StepExecutesTheWordAtPc : Prop :=
  ∀ s : State, s.run = .running → (s.admitEnv.cancel = false ∨ s.waiting = true) →
    (step s = exec (decode (s.admitEnv.memRead s.pc).1)
      { (s.admitEnv.memRead s.pc).2 with pc := s.pc + 1#16, waiting := false }) ∧
    (s.pc ≠ s.cfg.kbdStatusAddr →
      step s = exec (decode (s.memPeek s.pc)) { s.admitEnv with pc := s.pc + 1#16, waiting := false })

/-- A stopped machine makes no step and nothing changes, however often it is stepped (R26, R150); that `step` then
answers the same state is the model's choice (log 21). -/
def Obligations.StoppedMachineStaysAsItIs : Prop :=
  ∀ (k : Nat) (s : State), s.run ≠ .running → After k s s

/-- A request seen before the fetch stops the machine with nothing else changed (R155; `CANCELLED` is D16, log 19;
vectors D6, log 6); a machine held in GETC or IN is not released by a request, which is seen once the wait has ended
(log 16). -/
def Obligations.CancelStopsBeforeTheFetch : Prop :=
  (∀ s : State, s.run = .running → s.waiting = false → s.admitEnv.cancel = true →
    step s = .next { s.admitEnv with run := .cancelled }) ∧
  (∀ s : State, s.run = .running → s.waiting = true → s.pc ≠ s.cfg.kbdStatusAddr →
    readsConsole (decode (s.memPeek s.pc)) = true → s.admitEnv.conIn = [] →
    step s = .next { s.admitEnv with waiting := true }) ∧
  (∀ s : State, s.run = .running → s.waiting = true → s.pc ≠ s.cfg.kbdStatusAddr →
    readsConsole (decode (s.memPeek s.pc)) = true → s.admitEnv.conIn ≠ [] → s.admitEnv.cancel = true →
    ∃ t, step s = .next t ∧ t.run = .running ∧ t.waiting = false ∧ t.pc = s.pc + 1#16 ∧ t.cancel = true ∧
      step t = .next { t.admitEnv with run := .cancelled })

/-- Without a pending character GETC and IN do not complete (R156), nothing but the environment's own move and the mark
`waiting` changes (log 14, log 16), and with one they complete. The zero extension is the spec's decision D18 (log 22),
the vectors are D6 (log 6). -/
def Obligations.GetcAndInWaitForACharacter : Prop :=
  ∀ s : State, s.run = .running → (s.admitEnv.cancel = false ∨ s.waiting = true) → s.pc ≠ s.cfg.kbdStatusAddr →
    readsConsole (decode (s.memPeek s.pc)) = true →
    (s.admitEnv.conIn = [] → step s = .next { s.admitEnv with waiting := true }) ∧
    (∀ c rest, s.admitEnv.conIn = c :: rest →
      ∃ t, step s = .next t ∧ t.waiting = false ∧ t.run = .running ∧ t.pc = s.pc + 1#16 ∧ t.conIn = rest ∧
        t.reg 0 = c.setWidth 16)

/-- The environment adds input and requests cancellation and does nothing else (R14, R155, R176): its move before a
step appends bytes and keeps its request, an arrival before a keyboard poll appends bytes (D21). A step of a running
machine takes one move, and the input after it is all that was pending and has arrived, less characters from the front:
at most one for each poll and one for a GETC or an IN. The lists of moves and arrivals are the model's (log 15, log
31). -/
def Obligations.StepAdmitsTheEnvironmentsMove : Prop :=
  (∀ s : State, s.env = [] → s.admitEnv = s) ∧
  (∀ (s : State) (m : EnvMove) (rest : List EnvMove), s.env = m :: rest →
    s.admitEnv = { s with conIn := s.conIn ++ m.arrive, cancel := s.cancel || m.cancel, env := rest }) ∧
  (∀ s : State, s.pollEnv = [] → s.admitPoll = s) ∧
  (∀ (s : State) (bs : List Byte) (rest : List (List Byte)), s.pollEnv = bs :: rest →
    s.admitPoll = { s with conIn := s.conIn ++ bs, pollEnv := rest }) ∧
  (∀ s t : State, s.run = .running → step s = .next t →
    t.env = s.env.tail ∧ t.cancel = s.admitEnv.cancel ∧
    ∃ n k, n ≤ 2 ∧ k ≤ n + (if readsConsole (decode s.admitEnv.fetch.1) = true then 1 else 0) ∧
      (s.pc ≠ s.cfg.kbdStatusAddr → polls (decode s.admitEnv.fetch.1) s.admitEnv.fetch.2 = false → n = 0) ∧
      t.pollEnv = s.pollEnv.drop n ∧ t.conIn = (s.admitEnv.conIn ++ (s.pollEnv.take n).flatten).drop k)

/-- Only a GETC or an IN that finds no character is held: after every other step nothing waits (R175, R156; the mark
`waiting` is the model's, log 14, log 16; vectors D6, log 6). -/
def Obligations.OnlyGetcAndInWait : Prop :=
  ∀ s t : State, s.run = .running → step s = .next t → t.waiting = true →
    s.admitEnv.conIn = [] ∧ readsConsole (decode (s.admitEnv.memRead s.pc).1) = true

/-- Executing from `KBD_STATUS_ADDR` polls the keyboard: with a character pending the word is RTI and the run is fatal,
without one it is a branch that is never taken (R46, V10 rows 8 and 9). The device-aware fetch is D11 (log 11), that
0x8000 is RTI and 0x0000 is BR is D2 (log 2), the zero extension is D18 (log 22), the fatal record is D17 (log 20), and
the arrival before the poll is D21 (log 31). -/
def Obligations.FetchFromKeyboardStatusPolls : Prop :=
  ∀ s : State, s.run = .running → s.admitEnv.cancel = false → s.cfg.wf = true → s.pc = s.cfg.kbdStatusAddr →
    (∀ c rest, s.admitEnv.admitPoll.conIn = c :: rest →
      ∃ t, step s = .next t ∧ t.run = .fatal ∧ t.fatalCause = some ⟨.reservedOpcode, 0x8000#16⟩ ∧
        t.pc = s.pc + 1#16 ∧ t.conIn = rest ∧ t.memPeek s.cfg.kbdDataAddr = c.setWidth 16) ∧
    (s.admitEnv.admitPoll.conIn = [] →
      ∃ t, step s = .next t ∧ t.run = .running ∧ t.pc = s.pc + 1#16 ∧ t.regs = s.regs ∧ t.cond = s.cond ∧
        t.memPeek s.cfg.kbdStatusAddr = 0x0000#16)

/-- A zero word does nothing but advance the PC (R70, V11; that it is BR is D2, log 2). -/
def Obligations.ZeroWordOnlyAdvancesThePc : Prop :=
  ∀ s : State, s.run = .running → s.waiting = false → s.admitEnv.cancel = false → s.pc ≠ s.cfg.kbdStatusAddr →
    s.memPeek s.pc = 0x0000#16 → step s = .next { s.admitEnv with pc := s.pc + 1#16 }

/-- A store is seen by the very next fetch (R55, which the spec marks as derived; the encoding of ST is D2 and D3, log
2, log 3). -/
def Obligations.StoreIsSeenByTheNextFetch : Prop :=
  ∀ (s : State) (sr : RegIdx), s.run = .running → s.waiting = false → s.cancel = false → s.env = [] →
    s.pc ≠ s.cfg.kbdStatusAddr → s.pc + 1#16 ≠ s.cfg.kbdStatusAddr → s.memPeek s.pc = encode (.st sr 0#9) →
    ∃ t, step s = .next t ∧ t.pc = s.pc + 1#16 ∧ t.regs = s.regs ∧
      step t = exec (decode (s.reg sr)) { t with pc := s.pc + 2#16 }

/-! ### Reset and loading -/

/-- The state before the first fetch, for every choice of parameters, images, pending input, moves and arrivals (R32;
COND is the spec's decision D8, log 8). -/
def Obligations.StartStateHoldsTheStatedValues : Prop :=
  (∀ (c : Config) (images : List Image) (conIn : List Byte) (env : List EnvMove)
    (pollEnv : List (List Byte)),
    (∀ r, (boot c images conIn env pollEnv).reg r = 0x0000#16) ∧ (boot c images conIn env pollEnv).pc = c.pcStart ∧
    (boot c images conIn env pollEnv).cond = .zero ∧ (boot c images conIn env pollEnv).run = .running ∧
    (boot c images conIn env pollEnv).fatalCause = none ∧ (boot c images conIn env pollEnv).conOut = [] ∧
    (boot c images conIn env pollEnv).conIn = conIn ∧
    (∀ a : Word, (∀ img ∈ images, ¬(img.1.toNat ≤ a.toNat ∧ a.toNat < img.1.toNat + img.2.length)) →
      (boot c images conIn env pollEnv).memPeek a = 0x0000#16)) ∧
  (∀ (c : Config) (img : Image) (conIn : List Byte) (env : List EnvMove)
    (pollEnv : List (List Byte)) (k : Nat) (h : k < img.2.length),
    img.1.toNat + k < 65536 → (boot c [img] conIn env pollEnv).memPeek (img.1 + BitVec.ofNat 16 k) = img.2[k]) ∧
  boot defaultConfig [] [] [] [] = State.reset ∧ State.reset.pc = 0x3000#16

/-- The file's big-endian pairs become an origin and words; each word lands at its address, words past address 65535 are
dropped, and every other cell keeps what an earlier image left there (R172; the order of images is D20, log 23). -/
def Obligations.LoaderDepositsTheImage : Prop :=
  (∀ (oh ol : Byte) (ps : List (Byte × Byte)),
    imageOfBytes (oh :: ol :: ps.flatMap fun p => [p.1, p.2]) =
      some (BitVec.ofNat 16 (oh.toNat * 256 + ol.toNat),
        ps.map fun p => BitVec.ofNat 16 (p.1.toNat * 256 + p.2.toNat))) ∧
  (∀ (m : Memory) (img : Image) (a : Nat),
    Memory.read (loadImage m img) a =
      if img.1.toNat ≤ a ∧ a < 65536 then (img.2[a - img.1.toNat]?).getD (Memory.read m a) else Memory.read m a) ∧
  (∀ (c : Config) (images : List Image) (img : Image) (conIn : List Byte) (env : List EnvMove)
    (pollEnv : List (List Byte)),
    (boot c (images ++ [img]) conIn env pollEnv).mem = loadImage (boot c images conIn env pollEnv).mem img)

/-! ### Memory, the keyboard, the flags -/

/-- R43: a write is an unconditional store of one cell, with no device action. -/
def Obligations.StoreWritesOneCell : Prop :=
  ∀ (s : State) (a v b : Word),
    (s.memWrite a v).memPeek b = (if b = a then v else s.memPeek b) ∧
    s.memWrite a v = { s with mem := (s.memWrite a v).mem }

/-- A cell holds what the last of any sequence of stores to it wrote, or what it held before (R52). -/
def Obligations.ReadSeesTheMostRecentStore : Prop :=
  ∀ (s : State) (ws : List (Word × Word)) (a : Word),
    (ws.foldl (fun t w => t.memWrite w.1 w.2) s).memPeek a =
      ((ws.reverse.find? fun w => w.1 == a).map (·.2)).getD (s.memPeek a)

/-- R42: a read away from `KBD_STATUS_ADDR` answers the stored cell and has no effect; there it polls first and answers
the cell as the poll left it. -/
def Obligations.ReadPollsOnlyAtKeyboardStatus : Prop :=
  ∀ (s : State) (a : Word),
    (a ≠ s.cfg.kbdStatusAddr → s.memRead a = (s.memPeek a, s)) ∧
    (a = s.cfg.kbdStatusAddr → s.memRead a = (s.kbdPoll.memPeek a, s.kbdPoll))

/-- A poll takes what arrives just before it (D21, log 31). One that finds a character sets `KBD_STATUS` to 0x8000,
puts the character in `KBD_DATA` and consumes it; one that finds none sets `KBD_STATUS` to 0 and leaves `KBD_DATA`. A
read of `KBD_STATUS` answers exactly that (R45, which marks the consumption as derived; D21, log 24; D18, log 22). -/
def Obligations.KeyboardPollDepositsTheCharacter : Prop :=
  ∀ s : State, s.cfg.wf = true →
    (∀ c rest, s.admitPoll.conIn = c :: rest →
      (s.memRead s.cfg.kbdStatusAddr).1 = 0x8000#16 ∧
      (∀ b, (s.memRead s.cfg.kbdStatusAddr).2.memPeek b =
        if b = s.cfg.kbdStatusAddr then 0x8000#16 else if b = s.cfg.kbdDataAddr then c.setWidth 16 else s.memPeek b) ∧
      (s.memRead s.cfg.kbdStatusAddr).2 =
        { s.admitPoll with conIn := rest, mem := (s.memRead s.cfg.kbdStatusAddr).2.mem }) ∧
    (s.admitPoll.conIn = [] →
      (s.memRead s.cfg.kbdStatusAddr).1 = 0x0000#16 ∧
      (∀ b, (s.memRead s.cfg.kbdStatusAddr).2.memPeek b =
        if b = s.cfg.kbdStatusAddr then 0x0000#16 else s.memPeek b) ∧
      (s.memRead s.cfg.kbdStatusAddr).2 = { s.admitPoll with mem := (s.memRead s.cfg.kbdStatusAddr).2.mem })

/-- R9: sign extension copies the field's sign bit into every higher bit and keeps the signed value; a 16-bit value stays
as it is; a console character is extended with zeros. -/
def Obligations.ExtensionFillsTheHighBits : Prop :=
  (∀ (n : Nat) (f : BitVec n), 0 < n → n ≤ 16 →
    (sext16 f).toInt = f.toInt ∧
    (∀ i, i < 16 → (sext16 f).getLsbD i = if i < n then f.getLsbD i else f.getLsbD (n - 1))) ∧
  (∀ v : Word, sext16 v = v) ∧
  (∀ (c : Byte) (i : Nat), (zextByte c).getLsbD i = (decide (i < 8) && c.getLsbD i))

/-- R25: ADD, AND, NOT, LD, LDI, LDR and LEA leave in COND the sign of what their destination register then holds, and no
other instruction changes COND. -/
def Obligations.CondFollowsTheDestination : Prop :=
  ∀ (i : Instr) (s t : State), exec i s = .next t →
    match flagReg i with
    | some dr => t.cond = if t.reg dr = 0x0000#16 then .zero else if (t.reg dr)[15] then .neg else .pos
    | none => t.cond = s.cond

/-! ### ALU -/

/-- ADD, register form (R81). Opcode number and field positions: the spec's own decisions D2 and D3 (log 2, log 3). -/
def Obligations.AddRegisterForm : Prop :=
  (∀ w : Word, w.extractLsb' 12 4 = 0b0001#4 → w[5] = false →
    decode w = .addReg (w.extractLsb' 9 3).toFin (w.extractLsb' 6 3).toFin (w.extractLsb' 0 3).toFin) ∧
  (∀ (dr sr1 sr2 : RegIdx) (s : State), exec (.addReg dr sr1 sr2) s =
    let v := s.reg sr1 + s.reg sr2
    .next { s with
      regs := s.regs.set dr v, cond := if v = 0x0000#16 then .zero else if v[15] then .neg else .pos })

/-- ADD, immediate form (R82). Opcode number and field positions: the spec's own decisions D2 and D3 (log 2, log 3). -/
def Obligations.AddImmediateForm : Prop :=
  (∀ w : Word, w.extractLsb' 12 4 = 0b0001#4 → w[5] = true →
    decode w = .addImm (w.extractLsb' 9 3).toFin (w.extractLsb' 6 3).toFin (w.extractLsb' 0 5)) ∧
  (∀ (dr sr1 : RegIdx) (imm : BitVec 5) (s : State), exec (.addImm dr sr1 imm) s =
    let v := s.reg sr1 + imm.signExtend 16
    .next { s with
      regs := s.regs.set dr v, cond := if v = 0x0000#16 then .zero else if v[15] then .neg else .pos })

/-- AND, register form (R83). Opcode number and field positions: the spec's own decisions D2 and D3 (log 2, log 3). -/
def Obligations.AndRegisterForm : Prop :=
  (∀ w : Word, w.extractLsb' 12 4 = 0b0101#4 → w[5] = false →
    decode w = .andReg (w.extractLsb' 9 3).toFin (w.extractLsb' 6 3).toFin (w.extractLsb' 0 3).toFin) ∧
  (∀ (dr sr1 sr2 : RegIdx) (s : State), exec (.andReg dr sr1 sr2) s =
    let v := s.reg sr1 &&& s.reg sr2
    .next { s with
      regs := s.regs.set dr v, cond := if v = 0x0000#16 then .zero else if v[15] then .neg else .pos })

/-- AND, immediate form (R84). Opcode number and field positions: the spec's own decisions D2 and D3 (log 2, log 3). -/
def Obligations.AndImmediateForm : Prop :=
  (∀ w : Word, w.extractLsb' 12 4 = 0b0101#4 → w[5] = true →
    decode w = .andImm (w.extractLsb' 9 3).toFin (w.extractLsb' 6 3).toFin (w.extractLsb' 0 5)) ∧
  (∀ (dr sr1 : RegIdx) (imm : BitVec 5) (s : State), exec (.andImm dr sr1 imm) s =
    let v := s.reg sr1 &&& imm.signExtend 16
    .next { s with
      regs := s.regs.set dr v, cond := if v = 0x0000#16 then .zero else if v[15] then .neg else .pos })

/-- NOT (R85). Opcode number and field positions: the spec's own decisions D2 and D3 (log 2, log 3). -/
def Obligations.NotComplements : Prop :=
  (∀ w : Word, w.extractLsb' 12 4 = 0b1001#4 →
    decode w = .not (w.extractLsb' 9 3).toFin (w.extractLsb' 6 3).toFin) ∧
  (∀ (dr sr : RegIdx) (s : State), exec (.not dr sr) s =
    let v := 0xFFFF#16 - s.reg sr
    .next { s with
      regs := s.regs.set dr v, cond := if v = 0x0000#16 then .zero else if v[15] then .neg else .pos })

/-! ### Control transfer -/

/-- BR with its truth table (R91): `mask` is `n z p`, which is the spec's own decision D4 (log 4). Opcode number and
field positions: the spec's own decisions D2 and D3 (log 2, log 3). -/
def Obligations.BranchTestsTheCondition : Prop :=
  (∀ w : Word, w.extractLsb' 12 4 = 0b0000#4 → decode w = .br (w.extractLsb' 9 3) (w.extractLsb' 0 9)) ∧
  (∀ (mask : BitVec 3) (off : BitVec 9) (s : State), exec (.br mask off) s =
    if (match s.cond with | .neg => mask[2] | .zero => mask[1] | .pos => mask[0]) = true
    then .next { s with pc := s.pc + off.signExtend 16 } else .next s)

/-- JMP (R92). Opcode number and field positions: the spec's own decisions D2 and D3 (log 2, log 3). -/
def Obligations.JumpGoesToTheBaseRegister : Prop :=
  (∀ w : Word, w.extractLsb' 12 4 = 0b1100#4 → decode w = .jmp (w.extractLsb' 6 3).toFin) ∧
  (∀ (base : RegIdx) (s : State), exec (.jmp base) s = .next { s with pc := s.reg base })

/-- JSR (R93). Opcode number and field positions: the spec's own decisions D2 and D3 (log 2, log 3). -/
def Obligations.JsrLinksAndBranches : Prop :=
  (∀ w : Word, w.extractLsb' 12 4 = 0b0100#4 → w[11] = true → decode w = .jsr (w.extractLsb' 0 11)) ∧
  (∀ (off : BitVec 11) (s : State),
    exec (.jsr off) s = .next { s with regs := s.regs.set 7 s.pc, pc := s.pc + off.signExtend 16 })

/-- The link is written before the base register is read, so `JSRR R7` falls through (R94, which marks the R7 case as
derived; log 25). Opcode number and field positions: the spec's own decisions D2 and D3 (log 2, log 3). -/
def Obligations.JsrrLinksBeforeReadingTheBase : Prop :=
  (∀ w : Word, w.extractLsb' 12 4 = 0b0100#4 → w[11] = false → decode w = .jsrr (w.extractLsb' 6 3).toFin) ∧
  (∀ (base : RegIdx) (s : State),
    exec (.jsrr base) s =
      .next { s with regs := s.regs.set 7 s.pc, pc := if base = 7 then s.pc else s.reg base })

/-! ### Loads -/

/-- LD (R101). That the load polls is the spec's decision D11 (log 11). Opcode number and field positions: the spec's
own decisions D2 and D3 (log 2, log 3). -/
def Obligations.LdLoadsPcRelative : Prop :=
  (∀ w : Word, w.extractLsb' 12 4 = 0b0010#4 → decode w = .ld (w.extractLsb' 9 3).toFin (w.extractLsb' 0 9)) ∧
  (∀ (dr : RegIdx) (off : BitVec 9) (s : State), exec (.ld dr off) s =
    let r := s.memRead (s.pc + off.signExtend 16)
    .next { r.2 with
      regs := s.regs.set dr r.1, cond := if r.1 = 0x0000#16 then .zero else if r.1[15] then .neg else .pos })

/-- LDI (R102). That both reads poll is the spec's decision D11 (log 11). Opcode number and field positions: the spec's
own decisions D2 and D3 (log 2, log 3). -/
def Obligations.LdiLoadsThroughThePointer : Prop :=
  (∀ w : Word, w.extractLsb' 12 4 = 0b1010#4 → decode w = .ldi (w.extractLsb' 9 3).toFin (w.extractLsb' 0 9)) ∧
  (∀ (dr : RegIdx) (off : BitVec 9) (s : State), exec (.ldi dr off) s =
    let p := s.memRead (s.pc + off.signExtend 16)
    let r := p.2.memRead p.1
    .next { r.2 with
      regs := s.regs.set dr r.1, cond := if r.1 = 0x0000#16 then .zero else if r.1[15] then .neg else .pos })

/-- The usual way to the keyboard: LDI through a pointer to `KBD_STATUS_ADDR` polls, answers 0x8000 with NEG or 0 with
ZERO, and leaves the character in `KBD_DATA` (R102, R45). That the data read polls is D11 (log 11), the zero extension
is D18 (log 22), consumption and the arrival before the poll are R45's derivation and D21 (log 24, log 31). -/
def Obligations.LdiThroughAPointerPollsTheKeyboard : Prop :=
  ∀ (dr : RegIdx) (off : BitVec 9) (s : State), s.cfg.wf = true → s.pcRel off ≠ s.cfg.kbdStatusAddr →
    s.memPeek (s.pcRel off) = s.cfg.kbdStatusAddr →
    ∃ t, exec (.ldi dr off) s = .next t ∧ t.pc = s.pc ∧ t.conOut = s.conOut ∧
      (∀ r, r ≠ dr → t.reg r = s.reg r) ∧
      (∀ c rest, s.admitPoll.conIn = c :: rest → t.reg dr = 0x8000#16 ∧ t.cond = .neg ∧ t.conIn = rest ∧
        t.memPeek s.cfg.kbdDataAddr = c.setWidth 16) ∧
      (s.admitPoll.conIn = [] → t.reg dr = 0x0000#16 ∧ t.cond = .zero ∧ t.conIn = [] ∧
        t.memPeek s.cfg.kbdDataAddr = s.memPeek s.cfg.kbdDataAddr)

/-- LDR (R103). That the load polls is the spec's decision D11 (log 11). Opcode number and field positions: the spec's
own decisions D2 and D3 (log 2, log 3). -/
def Obligations.LdrLoadsBaseOffset : Prop :=
  (∀ w : Word, w.extractLsb' 12 4 = 0b0110#4 →
    decode w = .ldr (w.extractLsb' 9 3).toFin (w.extractLsb' 6 3).toFin (w.extractLsb' 0 6)) ∧
  (∀ (dr base : RegIdx) (off : BitVec 6) (s : State), exec (.ldr dr base off) s =
    let r := s.memRead (s.reg base + off.signExtend 16)
    .next { r.2 with
      regs := s.regs.set dr r.1, cond := if r.1 = 0x0000#16 then .zero else if r.1[15] then .neg else .pos })

/-- LEA (R104; conflict C1 is about this opcode). Opcode number and field positions: the spec's own decisions D2 and D3
(log 2, log 3). -/
def Obligations.LeaLoadsTheAddress : Prop :=
  (∀ w : Word, w.extractLsb' 12 4 = 0b1110#4 → decode w = .lea (w.extractLsb' 9 3).toFin (w.extractLsb' 0 9)) ∧
  (∀ (dr : RegIdx) (off : BitVec 9) (s : State), exec (.lea dr off) s =
    let v := s.pc + off.signExtend 16
    .next { s with
      regs := s.regs.set dr v, cond := if v = 0x0000#16 then .zero else if v[15] then .neg else .pos })

/-! ### Stores -/

/-- ST (R111), with the frame: nothing but the one cell changes. Opcode number and field positions: the spec's own
decisions D2 and D3 (log 2, log 3). -/
def Obligations.StStoresPcRelative : Prop :=
  (∀ w : Word, w.extractLsb' 12 4 = 0b0011#4 → decode w = .st (w.extractLsb' 9 3).toFin (w.extractLsb' 0 9)) ∧
  (∀ (sr : RegIdx) (off : BitVec 9) (s : State),
    ∃ t, exec (.st sr off) s = .next t ∧ t = { s with mem := t.mem } ∧
      ∀ a, t.memPeek a = if a = s.pc + off.signExtend 16 then s.reg sr else s.memPeek a)

/-- STI (R112): the pointer is read first, polling where it lies in `KBD_STATUS_ADDR`; nothing but the one cell changes
after that. That the pointer read polls is the spec's decision D11 (log 11). Opcode number and field positions: the
spec's own decisions D2 and D3 (log 2, log 3). -/
def Obligations.StiStoresThroughThePointer : Prop :=
  (∀ w : Word, w.extractLsb' 12 4 = 0b1011#4 → decode w = .sti (w.extractLsb' 9 3).toFin (w.extractLsb' 0 9)) ∧
  (∀ (sr : RegIdx) (off : BitVec 9) (s : State),
    ∃ t, exec (.sti sr off) s = .next t ∧
      t = { (s.memRead (s.pc + off.signExtend 16)).2 with mem := t.mem } ∧
      ∀ a, t.memPeek a =
        if a = (s.memRead (s.pc + off.signExtend 16)).1 then s.reg sr
        else (s.memRead (s.pc + off.signExtend 16)).2.memPeek a)

/-- STR (R113), with the frame: nothing but the one cell changes. Opcode number and field positions: the spec's own
decisions D2 and D3 (log 2, log 3). -/
def Obligations.StrStoresBaseOffset : Prop :=
  (∀ w : Word, w.extractLsb' 12 4 = 0b0111#4 →
    decode w = .str (w.extractLsb' 9 3).toFin (w.extractLsb' 6 3).toFin (w.extractLsb' 0 6)) ∧
  (∀ (sr base : RegIdx) (off : BitVec 6) (s : State),
    ∃ t, exec (.str sr base off) s = .next t ∧ t = { s with mem := t.mem } ∧
      ∀ a, t.memPeek a = if a = s.reg base + off.signExtend 16 then s.reg sr else s.memPeek a)

/-! ### TRAP -/

/-- GETC (R122). The vector is the spec's own decision D6 (log 6), the zero extension D18 (log 22). That a GETC without
a character is held by answering the state before the fetch, marked, is the model's (log 14, log 16). -/
def Obligations.GetcReadsOneCharacter : Prop :=
  (∀ w : Word, w.extractLsb' 12 4 = 0b1111#4 → w.extractLsb' 0 8 = 0x20#8 → decode w = .trapGetc) ∧
  (∀ (s : State) (c : Byte) (rest : List Byte), s.conIn = c :: rest →
    exec .trapGetc s = .next { s with conIn := rest, regs := s.regs.set 0 (c.setWidth 16) }) ∧
  (∀ s : State, s.conIn = [] → exec .trapGetc s = .next { s with pc := s.pc - 1#16, waiting := true })

/-- OUT (R123). The vector is the spec's own decision D6 (log 6), the flush event D15 (log 18). -/
def Obligations.OutWritesTheLowByte : Prop :=
  (∀ w : Word, w.extractLsb' 12 4 = 0b1111#4 → w.extractLsb' 0 8 = 0x21#8 → decode w = .trapOut) ∧
  (∀ s : State, exec .trapOut s =
    .next { s with conOut := s.conOut ++ [.write ((s.reg 0).extractLsb' 0 8), .flush] })

/-- PUTS (R124): the low bytes of the cells from `x[0]` up to the first zero cell or the end of memory, then a flush.
The vector (D6, log 6), the low byte (D12, log 12), the walk (D10, log 10) and the flush event (D15, log 18) are the
spec's decisions. -/
def Obligations.PutsWritesTheString : Prop :=
  (∀ w : Word, w.extractLsb' 12 4 = 0b1111#4 → w.extractLsb' 0 8 = 0x22#8 → decode w = .trapPuts) ∧
  (∀ s : State, ∃ k, (s.reg 0).toNat + k ≤ 65536 ∧
    (∀ j, j < k → s.memPeek (s.reg 0 + BitVec.ofNat 16 j) ≠ 0x0000#16) ∧
    ((s.reg 0).toNat + k = 65536 ∨ s.memPeek (s.reg 0 + BitVec.ofNat 16 k) = 0x0000#16) ∧
    exec .trapPuts s = .next { s with
      conOut := s.conOut ++
        (List.range k).map (fun j => .write ((s.memPeek (s.reg 0 + BitVec.ofNat 16 j)).extractLsb' 0 8)) ++ [.flush] })

/-- IN (R125). The vector (D6, log 6), that prompt, read and echo happen at once (D14, log 17), that there is no flush
(D15, log 18) and the zero extension (D18, log 22) are the spec's decisions; how a held IN is answered is the model's
(log 14, log 16). -/
def Obligations.InPromptsReadsAndEchoes : Prop :=
  (∀ w : Word, w.extractLsb' 12 4 = 0b1111#4 → w.extractLsb' 0 8 = 0x23#8 → decode w = .trapIn) ∧
  (∀ (s : State) (c : Byte) (rest : List Byte), s.conIn = c :: rest →
    exec .trapIn s = .next { s with
      conIn := rest, conOut := s.conOut ++ s.cfg.inPrompt.map .write ++ [.write c],
      regs := s.regs.set 0 (c.setWidth 16) }) ∧
  (∀ s : State, s.conIn = [] → exec .trapIn s = .next { s with pc := s.pc - 1#16, waiting := true })

/-- PUTSP (R126): for each cell of the string the low byte, then the high byte if it is not zero, then a flush. The
vector (D6, log 6), the walk (D10, log 10) and the flush event (D15, log 18) are the spec's decisions. -/
def Obligations.PutspWritesThePackedString : Prop :=
  (∀ w : Word, w.extractLsb' 12 4 = 0b1111#4 → w.extractLsb' 0 8 = 0x24#8 → decode w = .trapPutsp) ∧
  (∀ s : State, ∃ k, (s.reg 0).toNat + k ≤ 65536 ∧
    (∀ j, j < k → s.memPeek (s.reg 0 + BitVec.ofNat 16 j) ≠ 0x0000#16) ∧
    ((s.reg 0).toNat + k = 65536 ∨ s.memPeek (s.reg 0 + BitVec.ofNat 16 k) = 0x0000#16) ∧
    exec .trapPutsp s = .next { s with
      conOut := s.conOut ++
        (List.range k).flatMap (fun j =>
          let cell := s.memPeek (s.reg 0 + BitVec.ofNat 16 j)
          .write (cell.extractLsb' 0 8) ::
            if cell.extractLsb' 8 8 = 0x00#8 then [] else [.write (cell.extractLsb' 8 8)]) ++ [.flush] })

/-- HALT (R127). The text of the notice is a parameter (D13, log 13), the flush event is D15 (log 18). -/
def Obligations.HaltWritesTheNoticeAndStops : Prop :=
  (∀ w : Word, w.extractLsb' 12 4 = 0b1111#4 → w.extractLsb' 0 8 = 0x25#8 → decode w = .trapHalt) ∧
  (∀ s : State, exec .trapHalt s =
    .next { s with conOut := s.conOut ++ s.cfg.haltNotice.map .write ++ [.flush], run := .halted })

/-- Any of the other 250 vectors is fatal, with the word recorded and nothing else changed (R128). That they are fatal
is the spec's decision D7 (log 7), which six are defined is D6 (log 6), the record is D17 (log 20). -/
def Obligations.UndefinedVectorIsFatal : Prop :=
  (∀ (w : Word) (s : State), w.extractLsb' 12 4 = 0b1111#4 →
    ¬(0x20 ≤ (w.extractLsb' 0 8).toNat ∧ (w.extractLsb' 0 8).toNat ≤ 0x25) →
    exec (decode w) s = .next { s with run := .fatal, fatalCause := some ⟨.illegalTrapVector, w⟩ }) ∧
  (∀ (ignored : BitVec 4) (vec : BitVec 8) (s : State), exec (.trapUndefined ignored vec) s =
    .next { s with
      run := .fatal, fatalCause := some ⟨.illegalTrapVector, (0b1111#4 ++ ignored ++ vec : BitVec (4 + 4 + 8))⟩ })

/-! ### The fatal opcodes -/

/-- RTI (R141), with the fatal entry of R153 (D17, log 20). Opcode number: the spec's own decision D2 (log 2). -/
def Obligations.RtiIsFatal : Prop :=
  (∀ (w : Word) (s : State), w.extractLsb' 12 4 = 0b1000#4 →
    exec (decode w) s = .next { s with run := .fatal, fatalCause := some ⟨.reservedOpcode, w⟩ }) ∧
  (∀ (low : BitVec 12) (s : State), exec (.rti low) s =
    .next { s with run := .fatal, fatalCause := some ⟨.reservedOpcode, (0b1000#4 ++ low : BitVec (4 + 12))⟩ })

/-- RES (R142), with the fatal entry of R153 (D17, log 20). Opcode number: the spec's own decision D2 (log 2). -/
def Obligations.ResIsFatal : Prop :=
  (∀ (w : Word) (s : State), w.extractLsb' 12 4 = 0b1101#4 →
    exec (decode w) s = .next { s with run := .fatal, fatalCause := some ⟨.reservedOpcode, w⟩ }) ∧
  (∀ (low : BitVec 12) (s : State), exec (.res low) s =
    .next { s with run := .fatal, fatalCause := some ⟨.reservedOpcode, (0b1101#4 ++ low : BitVec (4 + 12))⟩ })

/-! ### Rules of the whole machine -/

/-- Which instructions leave the running state, and for what (R152). The opcode numbers are D2 (log 2), the vectors D6
(log 6), that an undefined vector is fatal is D7 (log 7), the names are D17 (log 20); that a held GETC or IN answers a
running state is the model's (log 14). -/
def Obligations.EachOpcodeCompletesOrStopsAsListed : Prop :=
  ∀ (w : Word) (s : State), s.run = .running → ∃ t, exec (decode w) s = .next t ∧
    if w.extractLsb' 12 4 = 0b1000#4 ∨ w.extractLsb' 12 4 = 0b1101#4 then
      t.run = .fatal ∧ t.fatalCause = some ⟨.reservedOpcode, w⟩
    else if w.extractLsb' 12 4 = 0b1111#4 then
      if w.extractLsb' 0 8 = 0x25#8 then t.run = .halted ∧ t.fatalCause = s.fatalCause
      else if 0x20 ≤ (w.extractLsb' 0 8).toNat ∧ (w.extractLsb' 0 8).toNat ≤ 0x24 then
        t.run = .running ∧ t.fatalCause = s.fatalCause
      else t.run = .fatal ∧ t.fatalCause = some ⟨.illegalTrapVector, w⟩
    else t.run = .running ∧ t.fatalCause = s.fatalCause

/-- A step leaves the running state only through the four causes of the table, each with what it records (R151). The
opcode numbers are D2 (log 2), the vectors D6 (log 6), F2 is D7 (log 7), `CANCELLED` is D16 (log 19), the names and the
record are D17 (log 20). -/
def Obligations.OnlyTheListedCausesStopTheMachine : Prop :=
  ∀ s t : State, s.run = .running → step s = .next t → t.run ≠ .running →
    let w := (s.admitEnv.memRead s.pc).1
    (t.run = .fatal ∧ t.fatalCause = some ⟨.reservedOpcode, w⟩ ∧
      (w.extractLsb' 12 4 = 0b1000#4 ∨ w.extractLsb' 12 4 = 0b1101#4)) ∨
    (t.run = .fatal ∧ t.fatalCause = some ⟨.illegalTrapVector, w⟩ ∧ w.extractLsb' 12 4 = 0b1111#4 ∧
      ¬(0x20 ≤ (w.extractLsb' 0 8).toNat ∧ (w.extractLsb' 0 8).toNat ≤ 0x25)) ∨
    (t.run = .halted ∧ t.fatalCause = s.fatalCause ∧ w.extractLsb' 12 4 = 0b1111#4 ∧ w.extractLsb' 0 8 = 0x25#8) ∨
    (t.run = .cancelled ∧ t.fatalCause = s.fatalCause ∧ t.pc = s.pc ∧ s.admitEnv.cancel = true)

/-- Every step answers a next state: no address, alignment, access, arithmetic or operand fault exists (R51, R151); that
a stopped or held machine answers a state too is the model's choice (log 14, log 21). -/
def Obligations.EveryStepAnswers : Prop :=
  ∀ s : State, ∃ t, step s = .next t

/-- An instruction writes no general register but its destination (R21); JSR and JSRR write R7, GETC and IN write R0. -/
def Obligations.RegistersChangeOnlyAtTheDestination : Prop :=
  ∀ (i : Instr) (s t : State), exec i s = .next t → ∀ r, destReg i ≠ some r → t.reg r = s.reg r

/-- No instruction but BR, JMP, JSR and JSRR writes PC (R23); a GETC or IN that is held has not completed (log 14). -/
def Obligations.PcChangesOnlyByControlTransfer : Prop :=
  ∀ (i : Instr) (s t : State), exec i s = .next t → writesPc i = false →
    (readsConsole i = true → s.conIn ≠ []) → t.pc = s.pc

/-- An instruction changes no cell but the one it stores to and, where it polls, the two device registers; one that
does not poll changes nothing else of the memory (R43, R46, R49; which reads poll is D11, log 11). -/
def Obligations.MemoryChangesOnlyByStoreAndPoll : Prop :=
  ∀ (i : Instr) (s t : State), exec i s = .next t → ∀ a, storeTarget i s ≠ some a →
    (polls i s = true → a ≠ s.cfg.kbdStatusAddr ∧ a ≠ s.cfg.kbdDataAddr) → t.memPeek a = s.memPeek a

/-- Console output exists only through the trap services, and is only ever appended to (R163, R14; their vectors are
D6, log 6). -/
def Obligations.OutputComesOnlyFromServices : Prop :=
  ∀ s t : State, step s = .next t → ∃ out, t.conOut = s.conOut ++ out ∧
    (out ≠ [] → s.run = .running ∧ writesConsole (decode (s.admitEnv.memRead s.pc).1) = true)

/-- Pending input and arrivals that an instruction does not read cannot be told by what it does (R29; arrivals: log
31). -/
def Obligations.UnreadInputDoesNotMatter : Prop :=
  ∀ (i : Instr) (s : State) (xs : List Byte) (ys : List (List Byte)), readsConsole i = false → polls i s = false →
    ∃ t, exec i s = .next t ∧
      exec i { s with conIn := xs, pollEnv := ys } = .next { t with conIn := xs, pollEnv := ys }

/-- No instruction changes the parameters, the request or the environment's moves, one that does not poll takes no
arrival, and no step changes the parameters (R33; log 15, log 26, log 31). -/
def Obligations.ParametersNeverChange : Prop :=
  (∀ (i : Instr) (s t : State), exec i s = .next t →
    t.cfg = s.cfg ∧ t.cancel = s.cancel ∧ t.env = s.env ∧ (polls i s = false → t.pollEnv = s.pollEnv)) ∧
  (∀ s t : State, step s = .next t → t.cfg = s.cfg)

/-- The invariant that every step keeps: memory stays canonical, a fatal record stands exactly in the fatal stop and
names a word that raises it, a held machine stands at a GETC or an IN (D2, D6, D7, D17; log 2, log 6, log 7, log 20;
`waiting` is the model's, log 16). -/
def Obligations.EveryStepKeepsTheInvariant : Prop :=
  ∀ s t : State, Inv s → step s = .next t → Inv t

/-- The reset state satisfies the invariant. -/
def Obligations.ResetSatisfiesTheInvariant : Prop :=
  Inv State.reset

/-- So does every state a host can start from, whatever the images, input, moves and arrivals. -/
def Obligations.EveryStartSatisfiesTheInvariant : Prop :=
  ∀ (c : Config) (images : List Image) (conIn : List Byte) (env : List EnvMove)
    (pollEnv : List (List Byte)), c.wf = true →
    Inv (boot c images conIn env pollEnv)

end
end

