-- ==== Sys2Proof/Laws/Bits.lean ====
section
/-! SUPPORT. Fields of words built by appending fields, and the opcode field of an encoded instruction. -/

namespace Sys2Proof

/-- The bits of a field. -/
theorem getLsbD_field (w : Word) (lo n i : Nat) : (field w lo n).getLsbD i = (decide (i < n) && w.getLsbD (lo + i)) := by
  simp [field]

/-- Two fields are equal when their bits are. -/
theorem field_eq_iff (w : Word) (lo n : Nat) (v : BitVec n) :
    field w lo n = v ↔ ∀ i, i < n → w.getLsbD (lo + i) = v.getLsbD i := by
  constructor
  · intro h i hi
    rw [← h, getLsbD_field]; simp [hi]
  · intro h
    apply BitVec.eq_of_getLsbD_eq
    intro i hi
    rw [getLsbD_field]; simp [hi, h i hi]

/-- The opcode is a function of bits 15:12 and the table of opcode numbers inverts it (R65). -/
theorem opcodeBits_opcodeOf (w : Word) : opcodeBits (opcodeOf w) = field w 12 4 := by
  symm
  rw [field_eq_iff]
  intro i hi
  have : i = 0 ∨ i = 1 ∨ i = 2 ∨ i = 3 := by omega
  unfold opcodeOf
  cases h3 : w[15] <;> cases h2 : w[14] <;> cases h1 : w[13] <;> cases h0 : w[12] <;>
    rcases this with rfl | rfl | rfl | rfl <;> simp [h0, h1, h2, h3, opcodeBits]

theorem opcodeBits_injective {a b : Opcode} (h : opcodeBits a = opcodeBits b) : a = b := by
  cases a <;> cases b <;> first | rfl | (revert h; decide)

/-- The opcode that a word's top four bits name. -/
theorem opcodeOf_eq_iff (w : Word) (o : Opcode) : opcodeOf w = o ↔ field w 12 4 = opcodeBits o := by
  rw [← opcodeBits_opcodeOf]
  exact ⟨fun h => by rw [h], opcodeBits_injective⟩

/-- The top four bits of an encoded instruction are its opcode's number. -/
theorem field_encode (i : Instr) : field (encode i) 12 4 = opcodeBits i.opcode := by
  rw [field_eq_iff]
  intro k hk
  simp only [encode, BitVec.getLsbD_append]
  simp

@[simp] theorem opcodeOf_encode (i : Instr) : opcodeOf (encode i) = i.opcode :=
  (opcodeOf_eq_iff _ _).mpr (field_encode i)

/-- The low bits of an encoded instruction are its operand bits. -/
theorem getLsbD_encode (i : Instr) (k : Nat) (hk : k < 12) : (encode i).getLsbD k = (operandBits i).getLsbD k := by
  rw [encode, BitVec.getLsbD_append]
  simp [hk]

@[simp] theorem toFin_regBits (r : RegIdx) : (regBits r).toFin = r := rfl

/-- A register field that holds the bits of `r` is `r`. -/
theorem regField_eq {w : Word} {lo : Nat} {r : RegIdx} (h : field w lo 3 = regBits r) : regField w lo = r := by
  simp [regField, h]

/-- The vectors that select no service are those outside `0x20`..`0x25` (R67, R128). -/
theorem isServiceVector_eq_false_iff (v : BitVec 8) : isServiceVector v = false ↔ v.toNat < 0x20 ∨ 0x25 < v.toNat := by
  simp [isServiceVector, BitVec.le_def]
  omega

/-- A vector that is none of the six selects no service. -/
theorem not_isServiceVector {v : BitVec 8} (h0 : v ≠ 0x20#8) (h1 : v ≠ 0x21#8) (h2 : v ≠ 0x22#8) (h3 : v ≠ 0x23#8)
    (h4 : v ≠ 0x24#8) (h5 : v ≠ 0x25#8) : isServiceVector v = false := by
  have ne : ∀ k : BitVec 8, v ≠ k → v.toNat ≠ k.toNat := fun k h e => h (BitVec.eq_of_toNat_eq e)
  have n0 := ne _ h0
  have n1 := ne _ h1
  have n2 := ne _ h2
  have n3 := ne _ h3
  have n4 := ne _ h4
  have n5 := ne _ h5
  simp only [BitVec.toNat_ofNat, Nat.reducePow, Nat.reduceMod] at n0 n1 n2 n3 n4 n5
  rw [isServiceVector_eq_false_iff]
  omega

/-- Everything the trap dispatcher can select (R67). -/
theorem decodeTrap_cases (w : Word) :
    (field w 0 8 = 0x20#8 ∧ decodeTrap w = .trapGetc) ∨ (field w 0 8 = 0x21#8 ∧ decodeTrap w = .trapOut) ∨
    (field w 0 8 = 0x22#8 ∧ decodeTrap w = .trapPuts) ∨ (field w 0 8 = 0x23#8 ∧ decodeTrap w = .trapIn) ∨
    (field w 0 8 = 0x24#8 ∧ decodeTrap w = .trapPutsp) ∨ (field w 0 8 = 0x25#8 ∧ decodeTrap w = .trapHalt) ∨
    (isServiceVector (field w 0 8) = false ∧ decodeTrap w = .trapUndefined (field w 8 4) (field w 0 8)) := by
  unfold decodeTrap
  simp only
  by_cases h0 : field w 0 8 = 0x20#8
  · simp [h0]
  by_cases h1 : field w 0 8 = 0x21#8
  · simp [h1]
  by_cases h2 : field w 0 8 = 0x22#8
  · simp [h2]
  by_cases h3 : field w 0 8 = 0x23#8
  · simp [h3]
  by_cases h4 : field w 0 8 = 0x24#8
  · simp [h4]
  by_cases h5 : field w 0 8 = 0x25#8
  · simp [h5]
  simp [h0, h1, h2, h3, h4, h5, not_isServiceVector]

end Sys2Proof
end

