-- ==== Sys2Proof/Laws/Memory.lean ====
section
/-! SUPPORT. The laws of the memory list: a read sees the last write, a write leaves every other cell alone, writes keep
the canonical form, and memories in that form are equal when they read alike. -/

namespace Sys2Proof.Machine

@[simp] theorem Memory.read_nil (a : Nat) : Memory.read [] a = Memory.unlisted := rfl

theorem Memory.read_cons (b : Nat) (w : Word) (m : Memory) (a : Nat) :
    Memory.read ((b, w) :: m) a = if a = b then w else Memory.read m a := rfl

/-- A cell that is removed reads as an unlisted one. -/
theorem Memory.read_filter_same (m : Memory) (a : Nat) :
    Memory.read (m.filter fun c => c.1 != a) a = Memory.unlisted := by
  induction m with
  | nil => rfl
  | cons c m ih =>
    obtain ⟨b, w⟩ := c
    by_cases h : b = a
    · simpa [List.filter_cons, h] using ih
    · simpa [List.filter_cons, h, Memory.read_cons, Ne.symm h] using ih

/-- Removing one cell leaves the others. -/
theorem Memory.read_filter_other (m : Memory) (a b : Nat) (h : b ≠ a) :
    Memory.read (m.filter fun c => c.1 != a) b = Memory.read m b := by
  induction m with
  | nil => rfl
  | cons c m ih =>
    obtain ⟨k, w⟩ := c
    by_cases hk : k = a
    · have : b ≠ k := fun e => h (e.trans hk)
      simpa [List.filter_cons, hk, Memory.read_cons, h] using ih
    · by_cases hb : b = k
      · simp [hk, Memory.read_cons, hb]
      · simpa [List.filter_cons, hk, Memory.read_cons, hb] using ih

/-- A cell put into a list that did not list its address. -/
theorem Memory.read_insert (m : Memory) (a b : Nat) (v : Word) (h : ∀ c ∈ m, c.1 ≠ a) :
    Memory.read (Memory.insert m a v) b = if b = a then v else Memory.read m b := by
  induction m with
  | nil => rfl
  | cons c m ih =>
    obtain ⟨k, w⟩ := c
    have hk : k ≠ a := h (k, w) (by simp)
    have ih' := ih fun c hc => h c (by simp [hc])
    by_cases hlt : a < k
    · simp [Memory.insert, hlt, Memory.read_cons]
    · by_cases hb : b = k
      · simp [Memory.insert, hlt, Memory.read_cons, hb, hk]
      · simpa [Memory.insert, hlt, Memory.read_cons, hb] using ih'

theorem Memory.filter_lacks (m : Memory) (a : Nat) : ∀ c ∈ m.filter (fun c => c.1 != a), c.1 ≠ a := by
  intro c hc
  simpa using (List.mem_filter.mp hc).2

/-- A read after a write (spec/20_memory.md R43, R52): the value written at that address, the old cell elsewhere. -/
theorem Memory.read_write (m : Memory) (a b : Nat) (v : Word) :
    Memory.read (Memory.write m a v) b = if b = a then v else Memory.read m b := by
  have other := Memory.read_filter_other m a b
  by_cases hv : v = Memory.unlisted
  · by_cases hb : b = a
    · subst hb
      simpa [Memory.write, hv] using Memory.read_filter_same m b
    · simpa [Memory.write, hv, hb] using other hb
  · rw [Memory.write, if_neg hv, Memory.read_insert _ _ _ _ (Memory.filter_lacks m a)]
    by_cases hb : b = a
    · simp [hb]
    · simpa [hb] using other hb

/-! ### The canonical form -/

theorem Memory.wfFrom_mono {lo hi : Nat} (h : lo ≤ hi) {m : Memory} (w : Memory.wfFrom hi m = true) :
    Memory.wfFrom lo m = true := by
  cases m with
  | nil => rfl
  | cons c m =>
    obtain ⟨a, v⟩ := c
    simp only [Memory.wfFrom, Bool.and_eq_true, decide_eq_true_eq] at w ⊢
    exact ⟨⟨⟨h.trans w.1.1.1, w.1.1.2⟩, w.1.2⟩, w.2⟩

theorem Memory.wfFrom_filter (p : Nat × Word → Bool) {lo : Nat} {m : Memory} (w : Memory.wfFrom lo m = true) :
    Memory.wfFrom lo (m.filter p) = true := by
  induction m generalizing lo with
  | nil => rfl
  | cons c m ih =>
    obtain ⟨a, v⟩ := c
    simp only [Memory.wfFrom, Bool.and_eq_true, decide_eq_true_eq] at w
    have tail := ih w.2
    by_cases hp : p (a, v)
    · simp [hp, Memory.wfFrom, w.1.1.1, w.1.1.2, tail]
      simpa using w.1.2
    · simpa [List.filter_cons, hp] using Memory.wfFrom_mono (by omega) tail

theorem Memory.wfFrom_insert {lo a : Nat} {v : Word} {m : Memory} (w : Memory.wfFrom lo m = true) (hlo : lo ≤ a)
    (ha : a < 65536) (hv : v ≠ Memory.unlisted) (h : ∀ c ∈ m, c.1 ≠ a) :
    Memory.wfFrom lo (Memory.insert m a v) = true := by
  induction m generalizing lo with
  | nil => simp [Memory.insert, Memory.wfFrom, hlo, ha, hv]
  | cons c m ih =>
    obtain ⟨k, x⟩ := c
    have hk : k ≠ a := h (k, x) (by simp)
    simp only [Memory.wfFrom, Bool.and_eq_true, decide_eq_true_eq] at w
    by_cases hlt : a < k
    · simp only [Memory.insert, hlt, if_true, Memory.wfFrom, Bool.and_eq_true, decide_eq_true_eq]
      exact ⟨⟨⟨hlo, ha⟩, by simpa using hv⟩, ⟨⟨by omega, w.1.1.2⟩, w.1.2⟩, w.2⟩
    · have tail := ih w.2 (by omega) fun c hc => h c (by simp [hc])
      simp only [Memory.insert, hlt, if_false, Memory.wfFrom, Bool.and_eq_true, decide_eq_true_eq]
      exact ⟨w.1, tail⟩

/-- A write keeps the canonical form. -/
theorem Memory.wf_write {m : Memory} {a : Nat} {v : Word} (w : Memory.wf m = true) (ha : a < 65536) :
    Memory.wf (Memory.write m a v) = true := by
  have rest := Memory.wfFrom_filter (fun c => c.1 != a) w
  by_cases hv : v = Memory.unlisted
  · simpa [Memory.wf, Memory.write, hv] using rest
  · simpa [Memory.wf, Memory.write, hv] using
      Memory.wfFrom_insert rest (Nat.zero_le a) ha hv (Memory.filter_lacks m a)

/-- Below the first listed address every cell reads as unlisted. -/
theorem Memory.read_below {lo : Nat} {m : Memory} (w : Memory.wfFrom lo m = true) (a : Nat) (h : a < lo) :
    Memory.read m a = Memory.unlisted := by
  induction m generalizing lo with
  | nil => rfl
  | cons c m ih =>
    obtain ⟨k, x⟩ := c
    simp only [Memory.wfFrom, Bool.and_eq_true, decide_eq_true_eq] at w
    have hk : a ≠ k := by omega
    simpa [Memory.read_cons, hk] using ih w.2 (by omega)

theorem Memory.ext_from {lo : Nat} {m n : Memory} (hm : Memory.wfFrom lo m = true) (hn : Memory.wfFrom lo n = true)
    (h : ∀ a, Memory.read m a = Memory.read n a) : m = n := by
  induction m generalizing lo n with
  | nil =>
    cases n with
    | nil => rfl
    | cons d n =>
      obtain ⟨k, x⟩ := d
      simp only [Memory.wfFrom, Bool.and_eq_true, decide_eq_true_eq] at hn
      have := h k
      simp [Memory.read_cons] at this
      simp [this.symm, Memory.unlisted] at hn
  | cons c m ih =>
    obtain ⟨j, y⟩ := c
    simp only [Memory.wfFrom, Bool.and_eq_true, decide_eq_true_eq, bne_iff_ne] at hm
    cases n with
    | nil =>
      have := h j
      simp [Memory.read_cons] at this
      exact absurd this hm.1.2
    | cons d n =>
      obtain ⟨k, x⟩ := d
      simp only [Memory.wfFrom, Bool.and_eq_true, decide_eq_true_eq, bne_iff_ne] at hn
      have hjk : j = k := by
        rcases Nat.lt_trichotomy j k with lt | eq | gt
        · have := h j
          rw [Memory.read_cons, if_pos rfl, Memory.read_cons, if_neg (by omega),
            Memory.read_below hn.2 j (by omega)] at this
          exact absurd this hm.1.2
        · exact eq
        · have := h k
          rw [Memory.read_cons, if_neg (by omega), Memory.read_below hm.2 k (by omega), Memory.read_cons,
            if_pos rfl] at this
          exact absurd this.symm hn.1.2
      subst hjk
      have hxy : y = x := by simpa [Memory.read_cons] using h j
      subst hxy
      have : m = n := ih hm.2 hn.2 fun a => by
        by_cases ha : a = j
        · rw [ha, Memory.read_below hm.2 j (by omega), Memory.read_below hn.2 j (by omega)]
        · simpa [Memory.read_cons, ha] using h a
      rw [this]

/-- Memories in canonical form that read alike are the same list. -/
theorem Memory.ext {m n : Memory} (hm : Memory.wf m = true) (hn : Memory.wf n = true)
    (h : ∀ a, Memory.read m a = Memory.read n a) : m = n :=
  Memory.ext_from hm hn h

end Sys2Proof.Machine
end

