-- ==== Sys2Proof/Laws/State.lean ====
section
/-! SUPPORT. What each update of the state leaves in each field: one lemma a field and update, all true by `rfl`. -/

namespace Sys2Proof.Machine

variable (s : State)

@[simp] theorem setReg_regs (i : RegIdx) (v : Word) : (s.setReg i v).regs = s.regs.set i v := rfl
@[simp] theorem setReg_pc (i : RegIdx) (v : Word) : (s.setReg i v).pc = s.pc := rfl
@[simp] theorem setReg_cond (i : RegIdx) (v : Word) : (s.setReg i v).cond = s.cond := rfl
@[simp] theorem setReg_run (i : RegIdx) (v : Word) : (s.setReg i v).run = s.run := rfl
@[simp] theorem setReg_fatalCause (i : RegIdx) (v : Word) : (s.setReg i v).fatalCause = s.fatalCause := rfl
@[simp] theorem setReg_mem (i : RegIdx) (v : Word) : (s.setReg i v).mem = s.mem := rfl
@[simp] theorem setReg_conIn (i : RegIdx) (v : Word) : (s.setReg i v).conIn = s.conIn := rfl
@[simp] theorem setReg_conOut (i : RegIdx) (v : Word) : (s.setReg i v).conOut = s.conOut := rfl
@[simp] theorem setReg_cancel (i : RegIdx) (v : Word) : (s.setReg i v).cancel = s.cancel := rfl
@[simp] theorem setReg_waiting (i : RegIdx) (v : Word) : (s.setReg i v).waiting = s.waiting := rfl
@[simp] theorem setReg_env (i : RegIdx) (v : Word) : (s.setReg i v).env = s.env := rfl
@[simp] theorem setReg_pollEnv (i : RegIdx) (v : Word) : (s.setReg i v).pollEnv = s.pollEnv := rfl
@[simp] theorem setReg_cfg (i : RegIdx) (v : Word) : (s.setReg i v).cfg = s.cfg := rfl

@[simp] theorem setPc_regs (v : Word) : (s.setPc v).regs = s.regs := rfl
@[simp] theorem setPc_pc (v : Word) : (s.setPc v).pc = v := rfl
@[simp] theorem setPc_cond (v : Word) : (s.setPc v).cond = s.cond := rfl
@[simp] theorem setPc_run (v : Word) : (s.setPc v).run = s.run := rfl
@[simp] theorem setPc_fatalCause (v : Word) : (s.setPc v).fatalCause = s.fatalCause := rfl
@[simp] theorem setPc_mem (v : Word) : (s.setPc v).mem = s.mem := rfl
@[simp] theorem setPc_conIn (v : Word) : (s.setPc v).conIn = s.conIn := rfl
@[simp] theorem setPc_conOut (v : Word) : (s.setPc v).conOut = s.conOut := rfl
@[simp] theorem setPc_cancel (v : Word) : (s.setPc v).cancel = s.cancel := rfl
@[simp] theorem setPc_waiting (v : Word) : (s.setPc v).waiting = s.waiting := rfl
@[simp] theorem setPc_env (v : Word) : (s.setPc v).env = s.env := rfl
@[simp] theorem setPc_pollEnv (v : Word) : (s.setPc v).pollEnv = s.pollEnv := rfl
@[simp] theorem setPc_cfg (v : Word) : (s.setPc v).cfg = s.cfg := rfl

@[simp] theorem setCond_regs (c : Cond) : (s.setCond c).regs = s.regs := rfl
@[simp] theorem setCond_pc (c : Cond) : (s.setCond c).pc = s.pc := rfl
@[simp] theorem setCond_cond (c : Cond) : (s.setCond c).cond = c := rfl
@[simp] theorem setCond_run (c : Cond) : (s.setCond c).run = s.run := rfl
@[simp] theorem setCond_fatalCause (c : Cond) : (s.setCond c).fatalCause = s.fatalCause := rfl
@[simp] theorem setCond_mem (c : Cond) : (s.setCond c).mem = s.mem := rfl
@[simp] theorem setCond_conIn (c : Cond) : (s.setCond c).conIn = s.conIn := rfl
@[simp] theorem setCond_conOut (c : Cond) : (s.setCond c).conOut = s.conOut := rfl
@[simp] theorem setCond_cancel (c : Cond) : (s.setCond c).cancel = s.cancel := rfl
@[simp] theorem setCond_waiting (c : Cond) : (s.setCond c).waiting = s.waiting := rfl
@[simp] theorem setCond_env (c : Cond) : (s.setCond c).env = s.env := rfl
@[simp] theorem setCond_pollEnv (c : Cond) : (s.setCond c).pollEnv = s.pollEnv := rfl
@[simp] theorem setCond_cfg (c : Cond) : (s.setCond c).cfg = s.cfg := rfl

@[simp] theorem memWrite_regs (a v : Word) : (s.memWrite a v).regs = s.regs := rfl
@[simp] theorem memWrite_pc (a v : Word) : (s.memWrite a v).pc = s.pc := rfl
@[simp] theorem memWrite_cond (a v : Word) : (s.memWrite a v).cond = s.cond := rfl
@[simp] theorem memWrite_run (a v : Word) : (s.memWrite a v).run = s.run := rfl
@[simp] theorem memWrite_fatalCause (a v : Word) : (s.memWrite a v).fatalCause = s.fatalCause := rfl
@[simp] theorem memWrite_mem (a v : Word) : (s.memWrite a v).mem = Memory.write s.mem a.toNat v := rfl
@[simp] theorem memWrite_conIn (a v : Word) : (s.memWrite a v).conIn = s.conIn := rfl
@[simp] theorem memWrite_conOut (a v : Word) : (s.memWrite a v).conOut = s.conOut := rfl
@[simp] theorem memWrite_cancel (a v : Word) : (s.memWrite a v).cancel = s.cancel := rfl
@[simp] theorem memWrite_waiting (a v : Word) : (s.memWrite a v).waiting = s.waiting := rfl
@[simp] theorem memWrite_env (a v : Word) : (s.memWrite a v).env = s.env := rfl
@[simp] theorem memWrite_pollEnv (a v : Word) : (s.memWrite a v).pollEnv = s.pollEnv := rfl
@[simp] theorem memWrite_cfg (a v : Word) : (s.memWrite a v).cfg = s.cfg := rfl

@[simp] theorem consoleWrite_regs (bs : List Byte) : (s.consoleWrite bs).regs = s.regs := rfl
@[simp] theorem consoleWrite_pc (bs : List Byte) : (s.consoleWrite bs).pc = s.pc := rfl
@[simp] theorem consoleWrite_cond (bs : List Byte) : (s.consoleWrite bs).cond = s.cond := rfl
@[simp] theorem consoleWrite_run (bs : List Byte) : (s.consoleWrite bs).run = s.run := rfl
@[simp] theorem consoleWrite_fatalCause (bs : List Byte) : (s.consoleWrite bs).fatalCause = s.fatalCause := rfl
@[simp] theorem consoleWrite_mem (bs : List Byte) : (s.consoleWrite bs).mem = s.mem := rfl
@[simp] theorem consoleWrite_conIn (bs : List Byte) : (s.consoleWrite bs).conIn = s.conIn := rfl
@[simp] theorem consoleWrite_conOut (bs : List Byte) : (s.consoleWrite bs).conOut = s.conOut ++ bs.map ConEvent.write := rfl
@[simp] theorem consoleWrite_cancel (bs : List Byte) : (s.consoleWrite bs).cancel = s.cancel := rfl
@[simp] theorem consoleWrite_waiting (bs : List Byte) : (s.consoleWrite bs).waiting = s.waiting := rfl
@[simp] theorem consoleWrite_env (bs : List Byte) : (s.consoleWrite bs).env = s.env := rfl
@[simp] theorem consoleWrite_pollEnv (bs : List Byte) : (s.consoleWrite bs).pollEnv = s.pollEnv := rfl
@[simp] theorem consoleWrite_cfg (bs : List Byte) : (s.consoleWrite bs).cfg = s.cfg := rfl

@[simp] theorem consoleFlush_regs : (s.consoleFlush).regs = s.regs := rfl
@[simp] theorem consoleFlush_pc : (s.consoleFlush).pc = s.pc := rfl
@[simp] theorem consoleFlush_cond : (s.consoleFlush).cond = s.cond := rfl
@[simp] theorem consoleFlush_run : (s.consoleFlush).run = s.run := rfl
@[simp] theorem consoleFlush_fatalCause : (s.consoleFlush).fatalCause = s.fatalCause := rfl
@[simp] theorem consoleFlush_mem : (s.consoleFlush).mem = s.mem := rfl
@[simp] theorem consoleFlush_conIn : (s.consoleFlush).conIn = s.conIn := rfl
@[simp] theorem consoleFlush_conOut : (s.consoleFlush).conOut = s.conOut ++ [ConEvent.flush] := rfl
@[simp] theorem consoleFlush_cancel : (s.consoleFlush).cancel = s.cancel := rfl
@[simp] theorem consoleFlush_waiting : (s.consoleFlush).waiting = s.waiting := rfl
@[simp] theorem consoleFlush_env : (s.consoleFlush).env = s.env := rfl
@[simp] theorem consoleFlush_pollEnv : (s.consoleFlush).pollEnv = s.pollEnv := rfl
@[simp] theorem consoleFlush_cfg : (s.consoleFlush).cfg = s.cfg := rfl

@[simp] theorem raiseFatal_regs (k : FatalKind) (ir : Word) : (s.raiseFatal k ir).regs = s.regs := rfl
@[simp] theorem raiseFatal_pc (k : FatalKind) (ir : Word) : (s.raiseFatal k ir).pc = s.pc := rfl
@[simp] theorem raiseFatal_cond (k : FatalKind) (ir : Word) : (s.raiseFatal k ir).cond = s.cond := rfl
@[simp] theorem raiseFatal_run (k : FatalKind) (ir : Word) : (s.raiseFatal k ir).run = .fatal := rfl
@[simp] theorem raiseFatal_fatalCause (k : FatalKind) (ir : Word) : (s.raiseFatal k ir).fatalCause = some ⟨k, ir⟩ := rfl
@[simp] theorem raiseFatal_mem (k : FatalKind) (ir : Word) : (s.raiseFatal k ir).mem = s.mem := rfl
@[simp] theorem raiseFatal_conIn (k : FatalKind) (ir : Word) : (s.raiseFatal k ir).conIn = s.conIn := rfl
@[simp] theorem raiseFatal_conOut (k : FatalKind) (ir : Word) : (s.raiseFatal k ir).conOut = s.conOut := rfl
@[simp] theorem raiseFatal_cancel (k : FatalKind) (ir : Word) : (s.raiseFatal k ir).cancel = s.cancel := rfl
@[simp] theorem raiseFatal_waiting (k : FatalKind) (ir : Word) : (s.raiseFatal k ir).waiting = s.waiting := rfl
@[simp] theorem raiseFatal_env (k : FatalKind) (ir : Word) : (s.raiseFatal k ir).env = s.env := rfl
@[simp] theorem raiseFatal_pollEnv (k : FatalKind) (ir : Word) : (s.raiseFatal k ir).pollEnv = s.pollEnv := rfl
@[simp] theorem raiseFatal_cfg (k : FatalKind) (ir : Word) : (s.raiseFatal k ir).cfg = s.cfg := rfl

@[simp] theorem haltRun_regs : (s.haltRun).regs = s.regs := rfl
@[simp] theorem haltRun_pc : (s.haltRun).pc = s.pc := rfl
@[simp] theorem haltRun_cond : (s.haltRun).cond = s.cond := rfl
@[simp] theorem haltRun_run : (s.haltRun).run = .halted := rfl
@[simp] theorem haltRun_fatalCause : (s.haltRun).fatalCause = s.fatalCause := rfl
@[simp] theorem haltRun_mem : (s.haltRun).mem = s.mem := rfl
@[simp] theorem haltRun_conIn : (s.haltRun).conIn = s.conIn := rfl
@[simp] theorem haltRun_conOut : (s.haltRun).conOut = s.conOut := rfl
@[simp] theorem haltRun_cancel : (s.haltRun).cancel = s.cancel := rfl
@[simp] theorem haltRun_waiting : (s.haltRun).waiting = s.waiting := rfl
@[simp] theorem haltRun_env : (s.haltRun).env = s.env := rfl
@[simp] theorem haltRun_pollEnv : (s.haltRun).pollEnv = s.pollEnv := rfl
@[simp] theorem haltRun_cfg : (s.haltRun).cfg = s.cfg := rfl

@[simp] theorem hold_regs : (s.hold).regs = s.regs := rfl
@[simp] theorem hold_pc : (s.hold).pc = s.pc - 1#16 := rfl
@[simp] theorem hold_cond : (s.hold).cond = s.cond := rfl
@[simp] theorem hold_run : (s.hold).run = s.run := rfl
@[simp] theorem hold_fatalCause : (s.hold).fatalCause = s.fatalCause := rfl
@[simp] theorem hold_mem : (s.hold).mem = s.mem := rfl
@[simp] theorem hold_conIn : (s.hold).conIn = s.conIn := rfl
@[simp] theorem hold_conOut : (s.hold).conOut = s.conOut := rfl
@[simp] theorem hold_cancel : (s.hold).cancel = s.cancel := rfl
@[simp] theorem hold_waiting : (s.hold).waiting = true := rfl
@[simp] theorem hold_env : (s.hold).env = s.env := rfl
@[simp] theorem hold_pollEnv : (s.hold).pollEnv = s.pollEnv := rfl
@[simp] theorem hold_cfg : (s.hold).cfg = s.cfg := rfl

@[simp] theorem cancelRun_regs : (s.cancelRun).regs = s.regs := rfl
@[simp] theorem cancelRun_pc : (s.cancelRun).pc = s.pc := rfl
@[simp] theorem cancelRun_cond : (s.cancelRun).cond = s.cond := rfl
@[simp] theorem cancelRun_run : (s.cancelRun).run = .cancelled := rfl
@[simp] theorem cancelRun_fatalCause : (s.cancelRun).fatalCause = s.fatalCause := rfl
@[simp] theorem cancelRun_mem : (s.cancelRun).mem = s.mem := rfl
@[simp] theorem cancelRun_conIn : (s.cancelRun).conIn = s.conIn := rfl
@[simp] theorem cancelRun_conOut : (s.cancelRun).conOut = s.conOut := rfl
@[simp] theorem cancelRun_cancel : (s.cancelRun).cancel = s.cancel := rfl
@[simp] theorem cancelRun_waiting : (s.cancelRun).waiting = s.waiting := rfl
@[simp] theorem cancelRun_env : (s.cancelRun).env = s.env := rfl
@[simp] theorem cancelRun_pollEnv : (s.cancelRun).pollEnv = s.pollEnv := rfl
@[simp] theorem cancelRun_cfg : (s.cancelRun).cfg = s.cfg := rfl

@[simp] theorem setCC_regs (i : RegIdx) : (s.setCC i).regs = s.regs := rfl
@[simp] theorem setCC_pc (i : RegIdx) : (s.setCC i).pc = s.pc := rfl
@[simp] theorem setCC_cond (i : RegIdx) : (s.setCC i).cond = condOf (s.reg i) := rfl
@[simp] theorem setCC_run (i : RegIdx) : (s.setCC i).run = s.run := rfl
@[simp] theorem setCC_fatalCause (i : RegIdx) : (s.setCC i).fatalCause = s.fatalCause := rfl
@[simp] theorem setCC_mem (i : RegIdx) : (s.setCC i).mem = s.mem := rfl
@[simp] theorem setCC_conIn (i : RegIdx) : (s.setCC i).conIn = s.conIn := rfl
@[simp] theorem setCC_conOut (i : RegIdx) : (s.setCC i).conOut = s.conOut := rfl
@[simp] theorem setCC_cancel (i : RegIdx) : (s.setCC i).cancel = s.cancel := rfl
@[simp] theorem setCC_waiting (i : RegIdx) : (s.setCC i).waiting = s.waiting := rfl
@[simp] theorem setCC_env (i : RegIdx) : (s.setCC i).env = s.env := rfl
@[simp] theorem setCC_pollEnv (i : RegIdx) : (s.setCC i).pollEnv = s.pollEnv := rfl
@[simp] theorem setCC_cfg (i : RegIdx) : (s.setCC i).cfg = s.cfg := rfl

@[simp] theorem link_regs : (s.link).regs = s.regs.set linkReg s.pc := rfl
@[simp] theorem link_pc : (s.link).pc = s.pc := rfl
@[simp] theorem link_cond : (s.link).cond = s.cond := rfl
@[simp] theorem link_run : (s.link).run = s.run := rfl
@[simp] theorem link_fatalCause : (s.link).fatalCause = s.fatalCause := rfl
@[simp] theorem link_mem : (s.link).mem = s.mem := rfl
@[simp] theorem link_conIn : (s.link).conIn = s.conIn := rfl
@[simp] theorem link_conOut : (s.link).conOut = s.conOut := rfl
@[simp] theorem link_cancel : (s.link).cancel = s.cancel := rfl
@[simp] theorem link_waiting : (s.link).waiting = s.waiting := rfl
@[simp] theorem link_env : (s.link).env = s.env := rfl
@[simp] theorem link_pollEnv : (s.link).pollEnv = s.pollEnv := rfl
@[simp] theorem link_cfg : (s.link).cfg = s.cfg := rfl

@[simp] theorem setReg_memPeek (i : RegIdx) (v : Word) (b : Word) : (s.setReg i v).memPeek b = s.memPeek b := rfl
@[simp] theorem setPc_reg (v : Word) (j : RegIdx) : (s.setPc v).reg j = s.reg j := rfl
@[simp] theorem setPc_memPeek (v : Word) (b : Word) : (s.setPc v).memPeek b = s.memPeek b := rfl
@[simp] theorem setCond_reg (c : Cond) (j : RegIdx) : (s.setCond c).reg j = s.reg j := rfl
@[simp] theorem setCond_memPeek (c : Cond) (b : Word) : (s.setCond c).memPeek b = s.memPeek b := rfl
@[simp] theorem memWrite_reg (a v : Word) (j : RegIdx) : (s.memWrite a v).reg j = s.reg j := rfl
@[simp] theorem consoleWrite_reg (bs : List Byte) (j : RegIdx) : (s.consoleWrite bs).reg j = s.reg j := rfl
@[simp] theorem consoleWrite_memPeek (bs : List Byte) (b : Word) : (s.consoleWrite bs).memPeek b = s.memPeek b := rfl
@[simp] theorem consoleFlush_reg (j : RegIdx) : (s.consoleFlush).reg j = s.reg j := rfl
@[simp] theorem consoleFlush_memPeek (b : Word) : (s.consoleFlush).memPeek b = s.memPeek b := rfl
@[simp] theorem raiseFatal_reg (k : FatalKind) (ir : Word) (j : RegIdx) : (s.raiseFatal k ir).reg j = s.reg j := rfl
@[simp] theorem raiseFatal_memPeek (k : FatalKind) (ir : Word) (b : Word) : (s.raiseFatal k ir).memPeek b = s.memPeek b := rfl
@[simp] theorem haltRun_reg (j : RegIdx) : (s.haltRun).reg j = s.reg j := rfl
@[simp] theorem haltRun_memPeek (b : Word) : (s.haltRun).memPeek b = s.memPeek b := rfl
@[simp] theorem hold_reg (j : RegIdx) : (s.hold).reg j = s.reg j := rfl
@[simp] theorem hold_memPeek (b : Word) : (s.hold).memPeek b = s.memPeek b := rfl
@[simp] theorem cancelRun_reg (j : RegIdx) : (s.cancelRun).reg j = s.reg j := rfl
@[simp] theorem cancelRun_memPeek (b : Word) : (s.cancelRun).memPeek b = s.memPeek b := rfl
@[simp] theorem setCC_reg (i : RegIdx) (j : RegIdx) : (s.setCC i).reg j = s.reg j := rfl
@[simp] theorem setCC_memPeek (i : RegIdx) (b : Word) : (s.setCC i).memPeek b = s.memPeek b := rfl
@[simp] theorem link_memPeek (b : Word) : (s.link).memPeek b = s.memPeek b := rfl

/-- Reading back a register just written (spec/10_state.md R20). -/
@[simp] theorem setReg_reg_same (i : RegIdx) (v : Word) : (s.setReg i v).reg i = v := by
  simp [State.setReg, State.reg, Vector.get_eq_getElem]

/-- A register write leaves every other register alone. -/
theorem setReg_reg_other (i j : RegIdx) (v : Word) (h : i ≠ j) : (s.setReg i v).reg j = s.reg j := by
  have h' : i.val ≠ j.val := fun e => h (Fin.ext e)
  simp [State.setReg, State.reg, Vector.get_eq_getElem, Vector.getElem_set_ne _ _ h']

/-- Both cases of a register read after a write. -/
theorem setReg_reg (i j : RegIdx) (v : Word) : (s.setReg i v).reg j = if i = j then v else s.reg j := by
  by_cases h : i = j
  · subst h; simp
  · simp [h, setReg_reg_other]

@[simp] theorem link_reg_link : s.link.reg linkReg = s.pc := setReg_reg_same s linkReg s.pc

/-- `writeDR` writes the register and derives COND from the value written (spec/10_state.md R25). -/
theorem writeDR_eq (dr : RegIdx) (v : Word) :
    s.writeDR dr v = { s with regs := s.regs.set dr v, cond := condOf v } := by
  have h : (s.setReg dr v).reg dr = v := setReg_reg_same s dr v
  simp only [State.writeDR, State.setCC, h]
  rfl

@[simp] theorem writeDR_reg_same (dr : RegIdx) (v : Word) : (s.writeDR dr v).reg dr = v :=
  setReg_reg_same s dr v

theorem writeDR_reg_other (dr j : RegIdx) (v : Word) (h : dr ≠ j) : (s.writeDR dr v).reg j = s.reg j :=
  setReg_reg_other s dr j v h

@[simp] theorem writeDR_regs (dr : RegIdx) (v : Word) : (s.writeDR dr v).regs = s.regs.set dr v := rfl
@[simp] theorem writeDR_pc (dr : RegIdx) (v : Word) : (s.writeDR dr v).pc = s.pc := rfl
@[simp] theorem writeDR_run (dr : RegIdx) (v : Word) : (s.writeDR dr v).run = s.run := rfl
@[simp] theorem writeDR_fatalCause (dr : RegIdx) (v : Word) : (s.writeDR dr v).fatalCause = s.fatalCause := rfl
@[simp] theorem writeDR_mem (dr : RegIdx) (v : Word) : (s.writeDR dr v).mem = s.mem := rfl
@[simp] theorem writeDR_conIn (dr : RegIdx) (v : Word) : (s.writeDR dr v).conIn = s.conIn := rfl
@[simp] theorem writeDR_conOut (dr : RegIdx) (v : Word) : (s.writeDR dr v).conOut = s.conOut := rfl
@[simp] theorem writeDR_cancel (dr : RegIdx) (v : Word) : (s.writeDR dr v).cancel = s.cancel := rfl
@[simp] theorem writeDR_waiting (dr : RegIdx) (v : Word) : (s.writeDR dr v).waiting = s.waiting := rfl
@[simp] theorem writeDR_env (dr : RegIdx) (v : Word) : (s.writeDR dr v).env = s.env := rfl
@[simp] theorem writeDR_pollEnv (dr : RegIdx) (v : Word) : (s.writeDR dr v).pollEnv = s.pollEnv := rfl
@[simp] theorem writeDR_cfg (dr : RegIdx) (v : Word) : (s.writeDR dr v).cfg = s.cfg := rfl
@[simp] theorem writeDR_cond (dr : RegIdx) (v : Word) : (s.writeDR dr v).cond = condOf v := by
  rw [writeDR_eq]

@[simp] theorem writeDR_memPeek (dr : RegIdx) (v b : Word) : (s.writeDR dr v).memPeek b = s.memPeek b := rfl

end Sys2Proof.Machine
end

