-- ==== Sys2Proof/Laws/Ops.lean ====
section
/-! SUPPORT. One lemma for what each shared operation can do: stores, the keyboard poll, the device-aware read, the
fetch, the environment's move. -/

namespace Sys2Proof.Machine

variable (s : State)

/-- A cell of an address, by the read of the memory list. -/
theorem memPeek_eq (a : Word) : s.memPeek a = Memory.read s.mem a.toNat := rfl

/-- A peek after a store (spec/20_memory.md R43). -/
theorem memPeek_memWrite (a b v : Word) : (s.memWrite a v).memPeek b = if b = a then v else s.memPeek b := by
  simp only [State.memPeek, memWrite_mem, Memory.read_write, BitVec.toNat_inj]

@[simp] theorem memPeek_memWrite_same (a v : Word) : (s.memWrite a v).memPeek a = v := by
  simp [memPeek_memWrite]

/-- A store keeps the canonical form of memory. -/
theorem memWrite_wf (a v : Word) (h : Memory.wf s.mem = true) : Memory.wf (s.memWrite a v).mem = true :=
  Memory.wf_write h a.isLt

/-! What arrives before a poll (log 31). -/

theorem admitPoll_nil (h : s.pollEnv = []) : s.admitPoll = s := by simp [State.admitPoll, h]

theorem admitPoll_cons {bs : List Byte} {rest : List (List Byte)} (h : s.pollEnv = bs :: rest) :
    s.admitPoll = { s with conIn := s.conIn ++ bs, pollEnv := rest } := by
  simp [State.admitPoll, h]

/-- An arrival before a poll adds input and changes nothing else. -/
theorem admitPoll_frame :
    s.admitPoll = { s with conIn := s.conIn ++ (s.pollEnv.take 1).flatten, pollEnv := s.pollEnv.drop 1 } := by
  cases h : s.pollEnv with
  | nil =>
    rw [admitPoll_nil s h, List.take_nil, List.drop_nil, List.flatten_nil, List.append_nil, ← h]
  | cons bs rest => simp [admitPoll_cons s h]

@[simp] theorem admitPoll_regs : s.admitPoll.regs = s.regs := by rw [admitPoll_frame]
@[simp] theorem admitPoll_pc : s.admitPoll.pc = s.pc := by rw [admitPoll_frame]
@[simp] theorem admitPoll_cond : s.admitPoll.cond = s.cond := by rw [admitPoll_frame]
@[simp] theorem admitPoll_run : s.admitPoll.run = s.run := by rw [admitPoll_frame]
@[simp] theorem admitPoll_fatalCause : s.admitPoll.fatalCause = s.fatalCause := by rw [admitPoll_frame]
@[simp] theorem admitPoll_mem : s.admitPoll.mem = s.mem := by rw [admitPoll_frame]
@[simp] theorem admitPoll_conIn : s.admitPoll.conIn = s.conIn ++ (s.pollEnv.take 1).flatten := by rw [admitPoll_frame]
@[simp] theorem admitPoll_conOut : s.admitPoll.conOut = s.conOut := by rw [admitPoll_frame]
@[simp] theorem admitPoll_cancel : s.admitPoll.cancel = s.cancel := by rw [admitPoll_frame]
@[simp] theorem admitPoll_waiting : s.admitPoll.waiting = s.waiting := by rw [admitPoll_frame]
@[simp] theorem admitPoll_env : s.admitPoll.env = s.env := by rw [admitPoll_frame]
@[simp] theorem admitPoll_pollEnv : s.admitPoll.pollEnv = s.pollEnv.drop 1 := by rw [admitPoll_frame]
@[simp] theorem admitPoll_cfg : s.admitPoll.cfg = s.cfg := by rw [admitPoll_frame]
@[simp] theorem admitPoll_memPeek (b : Word) : s.admitPoll.memPeek b = s.memPeek b := by simp [State.memPeek]

/-- A poll that finds no character (R45). -/
theorem kbdPoll_none (h : s.admitPoll.conIn = []) : s.kbdPoll = s.admitPoll.memWrite s.cfg.kbdStatusAddr 0#16 := by
  simp only [State.kbdPoll, State.consoleRead, h, admitPoll_cfg]

/-- A poll that finds a character consumes it and deposits it (R45). -/
theorem kbdPoll_some {c : Byte} {rest : List Byte} (h : s.admitPoll.conIn = c :: rest) :
    s.kbdPoll =
      (({ s.admitPoll with conIn := rest } : State).memWrite s.cfg.kbdStatusAddr kbdReady).memWrite s.cfg.kbdDataAddr
        (zextByte c) := by
  simp only [State.kbdPoll, State.consoleRead, h]
  simp

/-- A poll takes the arrival before it, changes memory, consumes what it finds, and does nothing else. -/
theorem kbdPoll_frame : s.kbdPoll =
    { s with
      mem := s.kbdPoll.mem, conIn := (s.conIn ++ (s.pollEnv.take 1).flatten).drop 1, pollEnv := s.pollEnv.drop 1 } := by
  rw [← admitPoll_conIn]
  cases h : s.admitPoll.conIn with
  | nil => rw [kbdPoll_none s h, List.drop_nil, ← h, admitPoll_frame]; rfl
  | cons c rest => rw [kbdPoll_some s h, admitPoll_frame]; rfl

/-! The fields a poll leaves alone, one lemma each. -/

@[simp] theorem kbdPoll_regs : s.kbdPoll.regs = s.regs := by rw [kbdPoll_frame]
@[simp] theorem kbdPoll_pc : s.kbdPoll.pc = s.pc := by rw [kbdPoll_frame]
@[simp] theorem kbdPoll_cond : s.kbdPoll.cond = s.cond := by rw [kbdPoll_frame]
@[simp] theorem kbdPoll_run : s.kbdPoll.run = s.run := by rw [kbdPoll_frame]
@[simp] theorem kbdPoll_fatalCause : s.kbdPoll.fatalCause = s.fatalCause := by rw [kbdPoll_frame]
@[simp] theorem kbdPoll_conOut : s.kbdPoll.conOut = s.conOut := by rw [kbdPoll_frame]
@[simp] theorem kbdPoll_cancel : s.kbdPoll.cancel = s.cancel := by rw [kbdPoll_frame]
@[simp] theorem kbdPoll_waiting : s.kbdPoll.waiting = s.waiting := by rw [kbdPoll_frame]
@[simp] theorem kbdPoll_env : s.kbdPoll.env = s.env := by rw [kbdPoll_frame]
@[simp] theorem kbdPoll_cfg : s.kbdPoll.cfg = s.cfg := by rw [kbdPoll_frame]
@[simp] theorem kbdPoll_conIn : s.kbdPoll.conIn = (s.conIn ++ (s.pollEnv.take 1).flatten).drop 1 := by
  rw [kbdPoll_frame]
@[simp] theorem kbdPoll_pollEnv : s.kbdPoll.pollEnv = s.pollEnv.drop 1 := by rw [kbdPoll_frame]
@[simp] theorem kbdPoll_reg (j : RegIdx) : s.kbdPoll.reg j = s.reg j := by simp [State.reg]

/-- A poll writes no cell but the two device registers. -/
theorem kbdPoll_memPeek (b : Word) (hs : b ≠ s.cfg.kbdStatusAddr) (hd : b ≠ s.cfg.kbdDataAddr) :
    s.kbdPoll.memPeek b = s.memPeek b := by
  rw [← admitPoll_memPeek s b]
  cases h : s.admitPoll.conIn with
  | nil => simp only [kbdPoll_none s h, memPeek_memWrite, hs, if_false]
  | cons c rest =>
    rw [kbdPoll_some s h]
    simp only [memPeek_memWrite, hs, hd, if_false]
    rfl

theorem kbdPoll_wf (h : Memory.wf s.mem = true) : Memory.wf s.kbdPoll.mem = true := by
  rw [← admitPoll_mem s] at h
  cases e : s.admitPoll.conIn with
  | nil => rw [kbdPoll_none s e]; exact memWrite_wf _ _ _ h
  | cons c rest => rw [kbdPoll_some s e]; exact memWrite_wf _ _ _ (memWrite_wf _ _ _ h)

/-- What a poll leaves in `KBD_STATUS` (R45). -/
theorem kbdPoll_status (hc : s.cfg.wf = true) :
    s.kbdPoll.memPeek s.cfg.kbdStatusAddr = if s.admitPoll.conIn.isEmpty then 0#16 else kbdReady := by
  have hne : s.cfg.kbdStatusAddr ≠ s.cfg.kbdDataAddr := by simpa [Config.wf] using hc
  cases h : s.admitPoll.conIn with
  | nil => rw [kbdPoll_none s h, memPeek_memWrite_same]; rfl
  | cons c rest => rw [kbdPoll_some s h, memPeek_memWrite, if_neg hne, memPeek_memWrite_same]; rfl

/-- A read at any other address is the stored cell and has no effect (R42). -/
theorem memRead_ordinary {a : Word} (h : a ≠ s.cfg.kbdStatusAddr) : s.memRead a = (s.memPeek a, s) := by
  simp [State.memRead, h]

/-- A read of `KBD_STATUS` polls first (R42). -/
theorem memRead_status : s.memRead s.cfg.kbdStatusAddr = (s.kbdPoll.memPeek s.cfg.kbdStatusAddr, s.kbdPoll) := by
  simp [State.memRead]

/-- The value a read answers is the cell after its effect. -/
theorem memRead_value (a : Word) : (s.memRead a).1 = (s.memRead a).2.memPeek a := rfl

/-- A read either has no effect or is a poll. -/
theorem memRead_cases (a : Word) :
    (a ≠ s.cfg.kbdStatusAddr ∧ s.memRead a = (s.memPeek a, s)) ∨
      (a = s.cfg.kbdStatusAddr ∧ s.memRead a = (s.kbdPoll.memPeek a, s.kbdPoll)) := by
  by_cases h : a = s.cfg.kbdStatusAddr
  · exact .inr ⟨h, by subst h; exact memRead_status s⟩
  · exact .inl ⟨h, memRead_ordinary s h⟩

/-- A read changes at most memory, the pending input and what is still to arrive before polls. -/
theorem memRead_frame (a : Word) : (s.memRead a).2 =
    { s with
      mem := (s.memRead a).2.mem, conIn := (s.memRead a).2.conIn, pollEnv := (s.memRead a).2.pollEnv } := by
  rcases memRead_cases s a with ⟨_, h⟩ | ⟨_, h⟩
  · rw [h]
  · rw [h, kbdPoll_frame s]

/-! The fields a read leaves alone, one lemma each. -/

@[simp] theorem memRead_regs (a : Word) : (s.memRead a).2.regs = s.regs := by rw [memRead_frame]
@[simp] theorem memRead_pc (a : Word) : (s.memRead a).2.pc = s.pc := by rw [memRead_frame]
@[simp] theorem memRead_cond (a : Word) : (s.memRead a).2.cond = s.cond := by rw [memRead_frame]
@[simp] theorem memRead_run (a : Word) : (s.memRead a).2.run = s.run := by rw [memRead_frame]
@[simp] theorem memRead_fatalCause (a : Word) : (s.memRead a).2.fatalCause = s.fatalCause := by rw [memRead_frame]
@[simp] theorem memRead_conOut (a : Word) : (s.memRead a).2.conOut = s.conOut := by rw [memRead_frame]
@[simp] theorem memRead_cancel (a : Word) : (s.memRead a).2.cancel = s.cancel := by rw [memRead_frame]
@[simp] theorem memRead_waiting (a : Word) : (s.memRead a).2.waiting = s.waiting := by rw [memRead_frame]
@[simp] theorem memRead_env (a : Word) : (s.memRead a).2.env = s.env := by rw [memRead_frame]
@[simp] theorem memRead_cfg (a : Word) : (s.memRead a).2.cfg = s.cfg := by rw [memRead_frame]
@[simp] theorem memRead_reg (a : Word) (j : RegIdx) : (s.memRead a).2.reg j = s.reg j := by simp [State.reg]

/-- A read writes no cell but the two device registers. -/
theorem memRead_memPeek (a b : Word) (hs : b ≠ s.cfg.kbdStatusAddr) (hd : b ≠ s.cfg.kbdDataAddr) :
    (s.memRead a).2.memPeek b = s.memPeek b := by
  rcases memRead_cases s a with ⟨_, h⟩ | ⟨_, h⟩
  · rw [h]
  · rw [h]; exact kbdPoll_memPeek s b hs hd

theorem memRead_wf (a : Word) (h : Memory.wf s.mem = true) : Memory.wf (s.memRead a).2.mem = true := by
  rcases memRead_cases s a with ⟨_, e⟩ | ⟨_, e⟩
  · rw [e]; exact h
  · rw [e]; exact kbdPoll_wf s h

/-- The input a read leaves: what was pending and what arrived before its poll, less at most the oldest character. -/
theorem memRead_input (a : Word) : ∃ n, n ≤ 1 ∧ (a ≠ s.cfg.kbdStatusAddr → n = 0) ∧
    (s.memRead a).2.pollEnv = s.pollEnv.drop n ∧
    (s.memRead a).2.conIn = (s.conIn ++ (s.pollEnv.take n).flatten).drop n := by
  rcases memRead_cases s a with ⟨_, h⟩ | ⟨ha, h⟩
  · exact ⟨0, by omega, fun _ => rfl, by rw [h]; rfl, by rw [h]; simp⟩
  · exact ⟨1, by omega, fun x => absurd ha x, by rw [h, kbdPoll_pollEnv], by rw [h, kbdPoll_conIn]⟩

/-- A fetch away from `KBD_STATUS` reads the stored cell and advances the PC (spec/60_exceptions.md R150). -/
theorem fetch_ordinary (h : s.pc ≠ s.cfg.kbdStatusAddr) :
    s.fetch = (s.memPeek s.pc, { s with pc := s.pc + 1#16, waiting := false }) := by
  simp [State.fetch, memRead_ordinary s h]

/-- A fetch changes the PC, the waiting mark, and what its read changes. -/
theorem fetch_frame : s.fetch.2 =
    { s with
      pc := s.pc + 1#16, waiting := false, mem := (s.memRead s.pc).2.mem, conIn := (s.memRead s.pc).2.conIn,
      pollEnv := (s.memRead s.pc).2.pollEnv } := by
  have h := memRead_frame s s.pc
  simp only [State.fetch]
  rw [h]

@[simp] theorem fetch_word : s.fetch.1 = (s.memRead s.pc).1 := rfl

@[simp] theorem fetch_pc : s.fetch.2.pc = s.pc + 1#16 := by rw [fetch_frame]
@[simp] theorem fetch_regs : s.fetch.2.regs = s.regs := by rw [fetch_frame]
@[simp] theorem fetch_cond : s.fetch.2.cond = s.cond := by rw [fetch_frame]
@[simp] theorem fetch_run : s.fetch.2.run = s.run := by rw [fetch_frame]
@[simp] theorem fetch_fatalCause : s.fetch.2.fatalCause = s.fatalCause := by rw [fetch_frame]
@[simp] theorem fetch_conOut : s.fetch.2.conOut = s.conOut := by rw [fetch_frame]
@[simp] theorem fetch_cancel : s.fetch.2.cancel = s.cancel := by rw [fetch_frame]
@[simp] theorem fetch_waiting : s.fetch.2.waiting = false := by rw [fetch_frame]
@[simp] theorem fetch_env : s.fetch.2.env = s.env := by rw [fetch_frame]
@[simp] theorem fetch_reg (j : RegIdx) : s.fetch.2.reg j = s.reg j := by simp [State.reg]
@[simp] theorem fetch_cfg : s.fetch.2.cfg = s.cfg := by rw [fetch_frame]
@[simp] theorem fetch_mem : s.fetch.2.mem = (s.memRead s.pc).2.mem := by rw [fetch_frame]
@[simp] theorem fetch_conIn : s.fetch.2.conIn = (s.memRead s.pc).2.conIn := by rw [fetch_frame]
@[simp] theorem fetch_pollEnv : s.fetch.2.pollEnv = (s.memRead s.pc).2.pollEnv := by rw [fetch_frame]

/-- The environment's move adds input, may request cancellation, and changes nothing else (log 15). -/
theorem admitEnv_frame : s.admitEnv =
    { s with conIn := s.admitEnv.conIn, cancel := s.admitEnv.cancel, env := s.env.tail } := by
  cases h : s.env with
  | nil =>
    have same : s.admitEnv = s := by simp [State.admitEnv, h]
    rw [same, List.tail_nil, ← h]
  | cons m rest => simp [State.admitEnv, h]

theorem admitEnv_nil (h : s.env = []) : s.admitEnv = s := by simp [State.admitEnv, h]

theorem admitEnv_cons {m : EnvMove} {rest : List EnvMove} (h : s.env = m :: rest) :
    s.admitEnv = { s with conIn := s.conIn ++ m.arrive, cancel := s.cancel || m.cancel, env := rest } := by
  simp [State.admitEnv, h]

@[simp] theorem admitEnv_regs : s.admitEnv.regs = s.regs := by rw [admitEnv_frame]
@[simp] theorem admitEnv_pc : s.admitEnv.pc = s.pc := by rw [admitEnv_frame]
@[simp] theorem admitEnv_cond : s.admitEnv.cond = s.cond := by rw [admitEnv_frame]
@[simp] theorem admitEnv_run : s.admitEnv.run = s.run := by rw [admitEnv_frame]
@[simp] theorem admitEnv_fatalCause : s.admitEnv.fatalCause = s.fatalCause := by rw [admitEnv_frame]
@[simp] theorem admitEnv_mem : s.admitEnv.mem = s.mem := by rw [admitEnv_frame]
@[simp] theorem admitEnv_conOut : s.admitEnv.conOut = s.conOut := by rw [admitEnv_frame]
@[simp] theorem admitEnv_waiting : s.admitEnv.waiting = s.waiting := by rw [admitEnv_frame]
@[simp] theorem admitEnv_cfg : s.admitEnv.cfg = s.cfg := by rw [admitEnv_frame]
@[simp] theorem admitEnv_env : s.admitEnv.env = s.env.tail := by rw [admitEnv_frame]
@[simp] theorem admitEnv_pollEnv : s.admitEnv.pollEnv = s.pollEnv := by rw [admitEnv_frame]
@[simp] theorem admitEnv_reg (j : RegIdx) : s.admitEnv.reg j = s.reg j := by simp [State.reg]
@[simp] theorem admitEnv_memPeek (a : Word) : s.admitEnv.memPeek a = s.memPeek a := by
  simp [State.memPeek]

/-- A console read takes the oldest pending character (spec/00_scope.md R14). -/
theorem consoleRead_some {c : Byte} {rest : List Byte} (h : s.conIn = c :: rest) :
    s.consoleRead = some (c, { s with conIn := rest }) := by
  simp [State.consoleRead, h]

/-- A console read finds nothing exactly while no character is pending. -/
theorem consoleRead_none (h : s.conIn = []) : s.consoleRead = none := by
  simp [State.consoleRead, h]

end Sys2Proof.Machine
end

