-- ==== Sys2Proof/Laws/Exec.lean ====
section
/-! SUPPORT. What each meaning answers, in the shared operations; and what a step can be. -/

namespace Sys2Proof.Machine

variable (s : State)

/-- A load reads, then ends like every instruction that derives COND (spec/42_load.md R100). -/
theorem loadInto_eq (dr : RegIdx) (ea : Word) : s.loadInto dr ea = (s.memRead ea).2.writeDR dr (s.memRead ea).1 := rfl

theorem exec_br (mask : BitVec 3) (off : BitVec 9) :
    exec (.br mask off) s = .next (if branchTaken mask s.cond then s.setPc (s.pcRel off) else s) := rfl
theorem exec_addReg (dr sr1 sr2 : RegIdx) :
    exec (.addReg dr sr1 sr2) s = .next (s.writeDR dr (s.reg sr1 + s.reg sr2)) := rfl
theorem exec_addImm (dr sr1 : RegIdx) (imm : BitVec 5) :
    exec (.addImm dr sr1 imm) s = .next (s.writeDR dr (s.reg sr1 + sext16 imm)) := rfl
theorem exec_andReg (dr sr1 sr2 : RegIdx) :
    exec (.andReg dr sr1 sr2) s = .next (s.writeDR dr (s.reg sr1 &&& s.reg sr2)) := rfl
theorem exec_andImm (dr sr1 : RegIdx) (imm : BitVec 5) :
    exec (.andImm dr sr1 imm) s = .next (s.writeDR dr (s.reg sr1 &&& sext16 imm)) := rfl
theorem exec_not (dr sr : RegIdx) : exec (.not dr sr) s = .next (s.writeDR dr (~~~ s.reg sr)) := rfl
theorem exec_jmp (base : RegIdx) : exec (.jmp base) s = .next (s.setPc (s.reg base)) := rfl
theorem exec_jsr (off : BitVec 11) : exec (.jsr off) s = .next (s.link.setPc (s.pcRel off)) := rfl
theorem exec_jsrr (base : RegIdx) : exec (.jsrr base) s = .next (s.link.setPc (s.link.reg base)) := rfl
theorem exec_ld (dr : RegIdx) (off : BitVec 9) : exec (.ld dr off) s = .next (s.loadInto dr (s.pcRel off)) := rfl
theorem exec_ldi (dr : RegIdx) (off : BitVec 9) :
    exec (.ldi dr off) s = .next ((s.indirect off).2.loadInto dr (s.indirect off).1) := rfl
theorem exec_ldr (dr base : RegIdx) (off : BitVec 6) :
    exec (.ldr dr base off) s = .next (s.loadInto dr (s.baseRel base off)) := rfl
theorem exec_lea (dr : RegIdx) (off : BitVec 9) : exec (.lea dr off) s = .next (s.writeDR dr (s.pcRel off)) := rfl
theorem exec_st (sr : RegIdx) (off : BitVec 9) :
    exec (.st sr off) s = .next (s.memWrite (s.pcRel off) (s.reg sr)) := rfl
theorem exec_sti (sr : RegIdx) (off : BitVec 9) :
    exec (.sti sr off) s = .next ((s.indirect off).2.memWrite (s.indirect off).1 ((s.indirect off).2.reg sr)) := rfl
theorem exec_str (sr base : RegIdx) (off : BitVec 6) :
    exec (.str sr base off) s = .next (s.memWrite (s.baseRel base off) (s.reg sr)) := rfl
theorem exec_trapOut :
    exec .trapOut s = .next (s.consoleWrite [lowByte (s.reg serviceReg)]).consoleFlush := rfl
theorem exec_trapPuts : exec .trapPuts s = .next (s.consoleWrite (s.serviceString.map lowByte)).consoleFlush := rfl
theorem exec_trapPutsp :
    exec .trapPutsp s = .next (s.consoleWrite (s.serviceString.flatMap packedBytes)).consoleFlush := rfl
theorem exec_trapHalt : exec .trapHalt s = .next (s.consoleWrite s.cfg.haltNotice).consoleFlush.haltRun := rfl
theorem exec_trapUndefined (ignored : BitVec 4) (vec : BitVec 8) :
    exec (.trapUndefined ignored vec) s =
      .next (s.raiseFatal .illegalTrapVector (encode (.trapUndefined ignored vec))) := rfl
theorem exec_rti (low : BitVec 12) : exec (.rti low) s = .next (s.raiseFatal .reservedOpcode (encode (.rti low))) := rfl
theorem exec_res (low : BitVec 12) : exec (.res low) s = .next (s.raiseFatal .reservedOpcode (encode (.res low))) := rfl

/-- GETC with a character pending (spec/44_trap.md R122). -/
theorem exec_trapGetc_some {c : Byte} {rest : List Byte} (h : s.conIn = c :: rest) :
    exec .trapGetc s = .next (({ s with conIn := rest } : State).setReg serviceReg (zextByte c)) := by
  simp [exec, execTrapGetc, consoleRead_some s h]

/-- GETC without one is held (spec/60_exceptions.md R156). -/
theorem exec_trapGetc_none (h : s.conIn = []) : exec .trapGetc s = .next s.hold := by
  simp [exec, execTrapGetc, consoleRead_none s h]

/-- IN with a character pending (spec/44_trap.md R125). -/
theorem exec_trapIn_some {c : Byte} {rest : List Byte} (h : s.conIn = c :: rest) :
    exec .trapIn s =
      .next (((({ s with conIn := rest } : State).consoleWrite s.cfg.inPrompt).consoleWrite [c]).setReg serviceReg
        (zextByte c)) := by
  simp [exec, execTrapIn, consoleRead_some s h]

/-- IN without one is held (spec/60_exceptions.md R156). -/
theorem exec_trapIn_none (h : s.conIn = []) : exec .trapIn s = .next s.hold := by
  simp [exec, execTrapIn, consoleRead_none s h]

/-- The string walk meets a zero cell. -/
theorem stringCells_zero {m : Memory} {fuel a : Nat} (h : Memory.read m a = 0#16) : stringCells m (fuel + 1) a = [] := by
  simp [stringCells, h]

/-- The string walk passes a cell that is not zero. -/
theorem stringCells_nonzero {m : Memory} {fuel a : Nat} (h : Memory.read m a ≠ 0#16) :
    stringCells m (fuel + 1) a = Memory.read m a :: stringCells m fuel (a + 1) := by
  simp [stringCells, h]

/-- What a step is: nothing for a stopped machine, a cancellation, or the instruction fetched
(spec/60_exceptions.md R150). -/
theorem step_eq : step s =
    if s.run = .running then
      if s.admitEnv.cancel = true ∧ s.waiting = false then .next s.admitEnv.cancelRun
      else exec (decode s.admitEnv.fetch.1) s.admitEnv.fetch.2
    else .next s := by
  cases h : s.run <;> simp only [step, startStep, h, reduceCtorEq, if_false, if_true]
  cases hc : s.admitEnv.cancel <;> cases hw : s.waiting <;> simp [hw]

/-- Everything a step that answers a next state can have been. -/
theorem step_cases {s t : State} (h : step s = .next t) :
    (s.run ≠ .running ∧ t = s) ∨
    (s.run = .running ∧ s.admitEnv.cancel = true ∧ s.waiting = false ∧ t = s.admitEnv.cancelRun) ∨
    (s.run = .running ∧ (s.admitEnv.cancel = false ∨ s.waiting = true) ∧
      exec (decode s.admitEnv.fetch.1) s.admitEnv.fetch.2 = .next t) := by
  rw [step_eq] at h
  by_cases hr : s.run = .running
  · rw [if_pos hr] at h
    by_cases hc : s.admitEnv.cancel = true ∧ s.waiting = false
    · rw [if_pos hc] at h
      injection h with h
      exact .inr (.inl ⟨hr, hc.1, hc.2, h.symm⟩)
    · rw [if_neg hc] at h
      refine .inr (.inr ⟨hr, ?_, h⟩)
      cases hx : s.admitEnv.cancel
      · exact .inl rfl
      · refine .inr ?_
        cases hw : s.waiting
        · exact absurd ⟨hx, hw⟩ hc
        · rfl
  · rw [if_neg hr] at h
    injection h with h
    exact .inl ⟨hr, h.symm⟩

end Sys2Proof.Machine
end

