-- ==== Sys2Proof/Laws/Loader.lean ====
section
/-! SUPPORT. Small laws of the loader. -/

namespace Sys2Proof.Machine

/-- A file byte pair `b0, b1` is the value `b0 * 256 + b1` (spec/20_memory.md R47). -/
theorem bigEndianWord_toNat (hi lo : Byte) : (bigEndianWord hi lo).toNat = hi.toNat * 256 + lo.toNat := by
  have h0 := lo.isLt
  show (hi ++ lo : BitVec (8 + 8)).toNat = _
  rw [BitVec.toNat_append, Nat.shiftLeft_eq, Nat.mul_comm, ← Nat.two_pow_add_eq_or_of_lt h0]

/-- Nothing is deposited past address 65535 (spec/70_reset_and_hazards.md R172). -/
theorem depositWords_past (m : Memory) (a : Nat) (ws : List Word) (h : ¬a < 65536) : depositWords m a ws = m := by
  cases ws with
  | nil => rfl
  | cons w ws => simp [depositWords, h]

/-- One word is deposited at its address. -/
theorem depositWords_cons (m : Memory) (a : Nat) (w : Word) (ws : List Word) (h : a < 65536) :
    depositWords m a (w :: ws) = depositWords (Memory.write m a w) (a + 1) ws := by
  simp [depositWords, h]

end Sys2Proof.Machine
end

