-- ==== Sys2Proof/Laws/PerInstr.lean ====
section
/-! SUPPORT. The family `OperandFields`: for each instruction, the fields that spec/30_encoding.md R61 and R62 name in
its encoded word hold its operands, and its form bits hold the form. -/

namespace Sys2Proof.Laws.OperandFields

/-- What stands in the fields of the encoded word of an instruction. -/
def Statement (i : Instr) : Prop :=
  match i with
  | .br mask off => field (encode i) 9 3 = mask ∧ field (encode i) 0 9 = off
  | .addReg dr sr1 sr2 => regField (encode i) 9 = dr ∧ regField (encode i) 6 = sr1 ∧ (encode i)[5] = false ∧
      regField (encode i) 0 = sr2
  | .addImm dr sr1 imm => regField (encode i) 9 = dr ∧ regField (encode i) 6 = sr1 ∧ (encode i)[5] = true ∧
      field (encode i) 0 5 = imm
  | .ld dr off => regField (encode i) 9 = dr ∧ field (encode i) 0 9 = off
  | .st sr off => regField (encode i) 9 = sr ∧ field (encode i) 0 9 = off
  | .jsrr base => (encode i)[11] = false ∧ regField (encode i) 6 = base
  | .jsr off => (encode i)[11] = true ∧ field (encode i) 0 11 = off
  | .andReg dr sr1 sr2 => regField (encode i) 9 = dr ∧ regField (encode i) 6 = sr1 ∧ (encode i)[5] = false ∧
      regField (encode i) 0 = sr2
  | .andImm dr sr1 imm => regField (encode i) 9 = dr ∧ regField (encode i) 6 = sr1 ∧ (encode i)[5] = true ∧
      field (encode i) 0 5 = imm
  | .ldr dr base off => regField (encode i) 9 = dr ∧ regField (encode i) 6 = base ∧ field (encode i) 0 6 = off
  | .str sr base off => regField (encode i) 9 = sr ∧ regField (encode i) 6 = base ∧ field (encode i) 0 6 = off
  | .rti low => field (encode i) 0 12 = low
  | .not dr sr => regField (encode i) 9 = dr ∧ regField (encode i) 6 = sr
  | .ldi dr off => regField (encode i) 9 = dr ∧ field (encode i) 0 9 = off
  | .sti sr off => regField (encode i) 9 = sr ∧ field (encode i) 0 9 = off
  | .jmp base => regField (encode i) 6 = base
  | .res low => field (encode i) 0 12 = low
  | .lea dr off => regField (encode i) 9 = dr ∧ field (encode i) 0 9 = off
  | .trapGetc => field (encode i) 0 8 = 0x20#8
  | .trapOut => field (encode i) 0 8 = 0x21#8
  | .trapPuts => field (encode i) 0 8 = 0x22#8
  | .trapIn => field (encode i) 0 8 = 0x23#8
  | .trapPutsp => field (encode i) 0 8 = 0x24#8
  | .trapHalt => field (encode i) 0 8 = 0x25#8
  | .trapUndefined ignored vec => field (encode i) 8 4 = ignored ∧ field (encode i) 0 8 = vec

/-- A field of the encoded word below the opcode is that field of the operand bits. -/
theorem field_low (i : Instr) (lo n : Nat) (h : lo + n ≤ 12) :
    field (encode i) lo n = (operandBits i).extractLsb' lo n := by
  rw [field_eq_iff]
  intro k hk
  rw [getLsbD_encode i _ (by omega)]
  simp [hk]

/-- A whole lower part of an append. -/
theorem low_part {a b : Nat} (x : BitVec a) (y : BitVec b) : (x ++ y).extractLsb' 0 b = y := by
  rw [BitVec.extractLsb'_append_eq_of_add_le (by omega), BitVec.extractLsb'_eq_self]

/-- A whole upper part of an append. -/
theorem high_part {a b : Nat} (x : BitVec a) (y : BitVec b) : (x ++ y).extractLsb' b a = x := by
  rw [BitVec.extractLsb'_append_eq_of_le (by omega), Nat.sub_self, BitVec.extractLsb'_eq_self]

/-- A field above the lower part of an append. -/
theorem above {a b lo n : Nat} {x : BitVec a} {y : BitVec b} {v : BitVec n} (h : b ≤ lo)
    (e : x.extractLsb' (lo - b) n = v) : (x ++ y).extractLsb' lo n = v := by
  rw [BitVec.extractLsb'_append_eq_of_le h, e]

/-- A field of the encoded word, from the operand bits. -/
theorem field_of_low {i : Instr} {lo n : Nat} {v : BitVec n} (h : lo + n ≤ 12)
    (e : (operandBits i).extractLsb' lo n = v) : field (encode i) lo n = v := by
  rw [field_low i lo n h, e]

/-- A register field of the encoded word, from the operand bits. -/
theorem regField_low {i : Instr} {lo : Nat} {r : RegIdx} (h : lo + 3 ≤ 12)
    (e : (operandBits i).extractLsb' lo 3 = regBits r) : regField (encode i) lo = r :=
  regField_eq (by rw [field_low i lo 3 h, e])

/-- A form bit of the encoded word, from the one-bit field it is. -/
theorem bit_of_field {i : Instr} {k : Nat} {b : Bool} (h : k < 12)
    (e : (operandBits i).extractLsb' k 1 = BitVec.ofBool b) : (encode i)[k]'(by omega) = b := by
  have hk := (field_eq_iff (encode i) k 1 (BitVec.ofBool b)).mp (field_of_low (by omega) e) 0 (by decide)
  rw [← BitVec.getLsbD_eq_getElem]
  simpa using hk

theorem br (mask : BitVec 3) (off : BitVec 9) : Statement (.br mask off) :=
  ⟨field_of_low (by decide) (high_part _ _),
   field_of_low (by decide) (low_part _ _)⟩

theorem addReg (dr : RegIdx) (sr1 : RegIdx) (sr2 : RegIdx) : Statement (.addReg dr sr1 sr2) :=
  ⟨regField_low (by decide) (above (by decide) (above (by decide) (high_part _ _))),
   regField_low (by decide) (above (by decide) (above (by decide) (low_part _ _))),
   bit_of_field (by decide) (above (by decide) (BitVec.extractLsb'_append_eq_of_add_le (by decide))),
   regField_low (by decide) (low_part _ _)⟩

theorem addImm (dr : RegIdx) (sr1 : RegIdx) (imm : BitVec 5) : Statement (.addImm dr sr1 imm) :=
  ⟨regField_low (by decide) (above (by decide) (above (by decide) (high_part _ _))),
   regField_low (by decide) (above (by decide) (above (by decide) (low_part _ _))),
   bit_of_field (by decide) (above (by decide) (low_part _ _)),
   field_of_low (by decide) (low_part _ _)⟩

theorem ld (dr : RegIdx) (off : BitVec 9) : Statement (.ld dr off) :=
  ⟨regField_low (by decide) (high_part _ _),
   field_of_low (by decide) (low_part _ _)⟩

theorem st (sr : RegIdx) (off : BitVec 9) : Statement (.st sr off) :=
  ⟨regField_low (by decide) (high_part _ _),
   field_of_low (by decide) (low_part _ _)⟩

theorem jsrr (base : RegIdx) : Statement (.jsrr base) :=
  ⟨bit_of_field (by decide) (above (by decide) (above (by decide) (by decide))),
   regField_low (by decide) (above (by decide) (low_part _ _))⟩

theorem jsr (off : BitVec 11) : Statement (.jsr off) :=
  ⟨bit_of_field (by decide) (high_part _ _),
   field_of_low (by decide) (low_part _ _)⟩

theorem andReg (dr : RegIdx) (sr1 : RegIdx) (sr2 : RegIdx) : Statement (.andReg dr sr1 sr2) :=
  ⟨regField_low (by decide) (above (by decide) (above (by decide) (high_part _ _))),
   regField_low (by decide) (above (by decide) (above (by decide) (low_part _ _))),
   bit_of_field (by decide) (above (by decide) (BitVec.extractLsb'_append_eq_of_add_le (by decide))),
   regField_low (by decide) (low_part _ _)⟩

theorem andImm (dr : RegIdx) (sr1 : RegIdx) (imm : BitVec 5) : Statement (.andImm dr sr1 imm) :=
  ⟨regField_low (by decide) (above (by decide) (above (by decide) (high_part _ _))),
   regField_low (by decide) (above (by decide) (above (by decide) (low_part _ _))),
   bit_of_field (by decide) (above (by decide) (low_part _ _)),
   field_of_low (by decide) (low_part _ _)⟩

theorem ldr (dr : RegIdx) (base : RegIdx) (off : BitVec 6) : Statement (.ldr dr base off) :=
  ⟨regField_low (by decide) (above (by decide) (high_part _ _)),
   regField_low (by decide) (above (by decide) (low_part _ _)),
   field_of_low (by decide) (low_part _ _)⟩

theorem str (sr : RegIdx) (base : RegIdx) (off : BitVec 6) : Statement (.str sr base off) :=
  ⟨regField_low (by decide) (above (by decide) (high_part _ _)),
   regField_low (by decide) (above (by decide) (low_part _ _)),
   field_of_low (by decide) (low_part _ _)⟩

theorem rti (low : BitVec 12) : Statement (.rti low) :=
  field_of_low (by decide) BitVec.extractLsb'_eq_self

theorem not (dr : RegIdx) (sr : RegIdx) : Statement (.not dr sr) :=
  ⟨regField_low (by decide) (above (by decide) (high_part _ _)),
   regField_low (by decide) (above (by decide) (low_part _ _))⟩

theorem ldi (dr : RegIdx) (off : BitVec 9) : Statement (.ldi dr off) :=
  ⟨regField_low (by decide) (high_part _ _),
   field_of_low (by decide) (low_part _ _)⟩

theorem sti (sr : RegIdx) (off : BitVec 9) : Statement (.sti sr off) :=
  ⟨regField_low (by decide) (high_part _ _),
   field_of_low (by decide) (low_part _ _)⟩

theorem jmp (base : RegIdx) : Statement (.jmp base) :=
  regField_low (by decide) (above (by decide) (low_part _ _))

theorem res (low : BitVec 12) : Statement (.res low) :=
  field_of_low (by decide) BitVec.extractLsb'_eq_self

theorem lea (dr : RegIdx) (off : BitVec 9) : Statement (.lea dr off) :=
  ⟨regField_low (by decide) (high_part _ _),
   field_of_low (by decide) (low_part _ _)⟩

theorem trapGetc : Statement .trapGetc := field_of_low (by decide) (by decide)

theorem trapOut : Statement .trapOut := field_of_low (by decide) (by decide)

theorem trapPuts : Statement .trapPuts := field_of_low (by decide) (by decide)

theorem trapIn : Statement .trapIn := field_of_low (by decide) (by decide)

theorem trapPutsp : Statement .trapPutsp := field_of_low (by decide) (by decide)

theorem trapHalt : Statement .trapHalt := field_of_low (by decide) (by decide)

theorem trapUndefined (ignored : BitVec 4) (vec : BitVec 8) : Statement (.trapUndefined ignored vec) :=
  ⟨field_of_low (by decide) (high_part _ _),
   field_of_low (by decide) (low_part _ _)⟩

end Sys2Proof.Laws.OperandFields
end

