-- ==== Sys2Proof/Laws/Run.lean ====
section
/-! SUPPORT. Runs of several steps: the induction over them, and their agreement with the host's runner. -/

namespace Sys2Proof.Machine

/-- A read of `KBD_STATUS` answers a word that is BR or RTI (spec/20_memory.md R46). -/
theorem opcodeOf_memRead_status (s : State) :
    opcodeOf (s.memRead s.cfg.kbdStatusAddr).1 = .br ∨ opcodeOf (s.memRead s.cfg.kbdStatusAddr).1 = .rti := by
  rw [memRead_status]
  cases e : s.admitPoll.conIn with
  | nil =>
    rw [kbdPoll_none _ e, memPeek_memWrite_same]
    exact .inl (show opcodeOf 0x0000#16 = .br by decide)
  | cons c rest =>
    rw [kbdPoll_some _ e, memPeek_memWrite]
    split
    · exact .inl (by simp [opcodeOf, zextByte])
    · rw [memPeek_memWrite_same]
      exact .inr (show opcodeOf kbdReady = .rti by decide)

/-- So no GETC and no IN is ever fetched there. -/
theorem readsConsole_memRead_status (s : State) : readsConsole (decode (s.memRead s.cfg.kbdStatusAddr).1) = false := by
  rcases opcodeOf_memRead_status s with h | h <;> simp [decode, h, readsConsole]

theorem after_zero {s t : State} : After 0 s t ↔ t = s := Iff.rfl

theorem after_succ {k : Nat} {s t : State} : After (k + 1) s t ↔ ∃ u, step s = .next u ∧ After k u t := Iff.rfl

/-- A property that every step keeps holds after every number of steps from a state that has it. -/
theorem after_induction {P : State → Prop} (keeps : ∀ s t, P s → step s = .next t → P t) :
    ∀ (k : Nat) (s t : State), P s → After k s t → P t := by
  intro k
  induction k with
  | zero =>
    intro s t hs h
    rw [after_zero.mp h]
    exact hs
  | succ k ih =>
    intro s t hs h
    obtain ⟨u, hu, rest⟩ := after_succ.mp h
    exact ih u t (keeps s u hs hu) rest

/-- The host's runner of a machine goes on exactly after a next state. -/
theorem run_succ_next (M : Host.Core) (k : Nat) (s t : M.State) :
    M.run (k + 1) s = .next t ↔ ∃ u, M.step s = .next u ∧ M.run k u = .next t := by
  rw [Host.Core.run]
  cases M.step s <;> simp

/-- The host's runner answers the state after `k` steps. -/
theorem run_eq_next_iff_after (k : Nat) (s t : State) :
    Host.Core.run Sys2Proof.core k s = Host.Outcome.next t ↔ After k s t := by
  induction k generalizing s with
  | zero =>
    constructor
    · intro h
      injection h with h
      exact h.symm
    · intro h
      rw [after_zero.mp h]
      rfl
  | succ k ih =>
    constructor
    · intro h
      obtain ⟨u, hu, rest⟩ := (run_succ_next Sys2Proof.core k s t).mp h
      exact ⟨u, hu, (ih u).mp rest⟩
    · rintro ⟨u, hu, rest⟩
      exact (run_succ_next Sys2Proof.core k s t).mpr ⟨u, hu, (ih u).mpr rest⟩

end Sys2Proof.Machine
end

