-- ==== Sys2Proof/Tests/Slice0.lean ====
section
/-! SUPPORT. Tests of the model, every expected value taken from spec/ (spec/95_test_vectors.md unless a comment names
another file), and witnesses that the hypotheses of the statements can be met. -/

namespace Sys2Proof.Tests

open Machine

/-! ### Well-formedness and decoding -/

/-- The one check of `Instr.wf`: a service vector is no undefined vector (spec/30_encoding.md R67). -/
theorem test_wf_refuses_service_vectors :
    [0x20#8, 0x21#8, 0x22#8, 0x23#8, 0x24#8, 0x25#8].map (fun v => (Instr.trapUndefined 0#4 v).wf) =
      [false, false, false, false, false, false] := by decide

/-- The vectors on both sides of the six, and the two ends (V8). -/
theorem test_wf_accepts_undefined_vectors :
    [0x00#8, 0x1F#8, 0x26#8, 0xFF#8].map (fun v => (Instr.trapUndefined 0xF#4 v).wf) = [true, true, true, true] := by
  decide

/-- V12, every constructor of the ALU, the loads and the stores. -/
theorem test_decode_data :
    [0x1042#16, 0x1FFF#16, 0x5401#16, 0x5020#16, 0x96FF#16, 0x2A04#16, 0xA806#16, 0x6680#16, 0xE409#16, 0x3804#16,
      0xB605#16, 0x7681#16].map decode =
    [.addReg 0 1 2, .addImm 7 7 0b11111#5, .andReg 2 0 1, .andImm 0 0 0#5, .not 3 3, .ld 5 4#9, .ldi 4 6#9, .ldr 3 2 0#6,
      .lea 2 9#9, .st 4 4#9, .sti 3 5#9, .str 3 2 1#6] := by decide

/-- V12, every constructor of the control transfers, the services and the fatal words. -/
theorem test_decode_control :
    [0x0000#16, 0x0BFE#16, 0xC1C0#16, 0x4803#16, 0x40C0#16, 0xF020#16, 0xF021#16, 0xF022#16, 0xF023#16, 0xF024#16,
      0xF025#16, 0xF0FF#16, 0x8000#16, 0xD000#16].map decode =
    [.br 0#3 0#9, .br 0b101#3 0x1FE#9, .jmp 7, .jsr 3#11, .jsrr 3, .trapGetc, .trapOut, .trapPuts, .trapIn, .trapPutsp,
      .trapHalt, .trapUndefined 0#4 0xFF#8, .rti 0#12, .res 0#12] := by decide

/-- Words written out bit by bit from the formats of spec/30_encoding.md R62: opcode, then each field. -/
theorem test_decode_bit_by_bit :
    [0b0001_101_010_0_00_110#16, 0b0101_001_111_1_10110#16, 0b1001_100_011_111111#16, 0b0000_011_101100111#16,
      0b1100_000_101_000000#16, 0b0100_1_10000000001#16, 0b0100_0_00_110_000000#16, 0b0110_010_001_100001#16,
      0b1110_110_100000000#16, 0b0111_001_100_011111#16, 0b1111_0000_00100011#16].map decode =
    [.addReg 5 2 6, .andImm 1 7 0b10110#5, .not 4 3, .br 0b011#3 0b101100111#9, .jmp 5, .jsr 0b10000000001#11, .jsrr 6,
      .ldr 2 1 0b100001#6, .lea 6 0b100000000#9, .str 1 4 0b011111#6, .trapIn] := by decide

/-- Ignored bits of each form that has them (R69; V1, V3, V5, V8, V9). -/
theorem test_decode_ignored_bits :
    [0x1419#16, 0x9E00#16, 0xCE80#16, 0x46C0#16, 0xFF25#16].map decode =
      [.addReg 2 0 1, .not 7 0, .jmp 2, .jsrr 3, .trapHalt] ∧
    decode 0x8FFF#16 = .rti 0xFFF#12 ∧ decode 0xD123#16 = .res 0x123#12 := by decide

/-- The canonical words of spec/30_encoding.md R69 and R72. -/
theorem test_encode :
    [encode (.not 3 3), encode (.addReg 2 0 1), encode (.jmp 7), encode (.jsrr 3), encode .trapHalt,
      encode (.br 0b001#3 0x1FD#9)] = [0x96FF#16, 0x1401#16, 0xC1C0#16, 0x40C0#16, 0xF025#16, 0x03FD#16] := by decide

/-- A table word of 16 bits is read; a number that no 16-bit word has is refused. -/
theorem test_decodeTableWord :
    decodeTableWord 16 0xF020 = some .trapGetc ∧ decodeTableWord 16 0x1021 = some (.addImm 0 0 1#5) ∧
    decodeTableWord 32 0x1021 = none ∧ decodeTableWord 16 0x10000 = none := by decide

/-- S1: sign extension of the four field widths and of a whole word. -/
theorem test_sext16 :
    [sext16 0x1F#5, sext16 0x10#5, sext16 0x0F#5, sext16 0x20#6, sext16 0x1F#6, sext16 0x100#9, sext16 0x0FF#9,
      sext16 0x400#11, sext16 0x3FF#11, sext16 0x8000#16] =
    [0xFFFF#16, 0xFFF0#16, 0x000F#16, 0xFFE0#16, 0x001F#16, 0xFF00#16, 0x00FF#16, 0xFC00#16, 0x03FF#16, 0x8000#16] := by
  decide

/-- S2: the flag of each boundary value. -/
theorem test_condOf :
    [0x0000#16, 0x0001#16, 0x7FFF#16, 0x8000#16, 0xFFFF#16].map condOf = [.zero, .pos, .pos, .neg, .neg] := by decide

/-! ### One step -/

/-- The state a step answered, if any. -/
def ran : Result → Option State
  | .next t => some t
  | .fault _ => none
  | .refused _ => none

/-- The reset state with the given PC, registers and cells. -/
def start (pc : Word) (regs : List (RegIdx × Word)) (cells : List (Word × Word)) : State :=
  cells.foldl (fun s c => s.memWrite c.1 c.2) (regs.foldl (fun s r => s.setReg r.1 r.2) (State.reset.setPc pc))

/-- One step of that state with the word `w` at PC. -/
def stepAt (w pc : Word) (regs : List (RegIdx × Word)) (cells : List (Word × Word)) : Option State :=
  ran (step ((start pc regs cells).placeWord w))

/-- V1 row 1 and S9: ADD is addition. -/
theorem test_add_register :
    (stepAt 0x1401#16 0x3000#16 [(0, 0x0003#16), (1, 0x0004#16)] []).map (fun t => (t.reg 2, t.cond, t.pc)) =
      some (0x0007#16, .pos, 0x3001#16) := by decide

/-- V1: a source that is also the destination. -/
theorem test_add_doubles :
    (stepAt 0x1241#16 0x3000#16 [(1, 0x4001#16)] []).map (fun t => (t.reg 1, t.cond)) = some (0x8002#16, .neg) := by
  decide

/-- V1, immediate -16. -/
theorem test_add_immediate :
    (stepAt 0x1730#16 0x3000#16 [(4, 0x0010#16)] []).map (fun t => (t.reg 3, t.cond)) = some (0x0000#16, .zero) := by
  decide

/-- V11: the PC advance wraps. -/
theorem test_add_at_the_top_of_memory :
    (stepAt 0x1261#16 0xFFFF#16 [] []).map (fun t => (t.reg 1, t.cond, t.pc)) = some (0x0001#16, .pos, 0x0000#16) := by
  decide

/-- V2 row 2. -/
theorem test_and_register :
    (stepAt 0x5401#16 0x3000#16 [(0, 0xFFFF#16), (1, 0x8000#16)] []).map (fun t => (t.reg 2, t.cond)) =
      some (0x8000#16, .neg) := by decide

/-- V2: the immediate is sign-extended. -/
theorem test_and_immediate :
    (stepAt 0x5BB0#16 0x3000#16 [(6, 0xBEEF#16)] []).map (fun t => (t.reg 5, t.cond)) = some (0xBEE0#16, .neg) := by
  decide

/-- V3 row 3. -/
theorem test_not :
    (stepAt 0x9E3F#16 0x3000#16 [(0, 0x8000#16)] []).map (fun t => (t.reg 7, t.cond)) = some (0x7FFF#16, .pos) := by
  decide

/-- V4: taken to itself with ZERO. -/
theorem test_br_taken : (stepAt 0x05FF#16 0x3000#16 [] []).map (·.pc) = some 0x3000#16 := by decide

/-- V4: `BRn` with ZERO is not taken. -/
theorem test_br_not_taken : (stepAt 0x08FF#16 0x3000#16 [] []).map (·.pc) = some 0x3001#16 := by decide

/-- V5 row 1. -/
theorem test_jmp :
    (stepAt 0xC080#16 0x3000#16 [(2, 0x4000#16)] []).map (fun t => (t.pc, t.reg 7)) = some (0x4000#16, 0x0000#16) := by
  decide

/-- V5: a backward call at the top of memory. -/
theorem test_jsr :
    (stepAt 0x4FFF#16 0xFFFF#16 [] []).map (fun t => (t.reg 7, t.pc, t.cond)) = some (0x0000#16, 0xFFFF#16, .zero) := by
  decide

/-- V5 row 7: -1024. -/
theorem test_jsr_reach :
    (stepAt 0x4C00#16 0x3001#16 [] []).map (fun t => (t.reg 7, t.pc)) = some (0x3002#16, 0x2C02#16) := by decide

/-- V5: `JSRR R3`. -/
theorem test_jsrr :
    (stepAt 0x40C0#16 0x3003#16 [(3, 0x3005#16)] []).map (fun t => (t.reg 7, t.pc)) = some (0x3004#16, 0x3005#16) := by
  decide

/-- V5: `JSRR R7` reads the link it has just written. -/
theorem test_jsrr_r7 :
    (stepAt 0x41C0#16 0x3000#16 [(7, 0x4000#16)] []).map (fun t => (t.reg 7, t.pc)) = some (0x3001#16, 0x3001#16) := by
  decide

/-- V6 row 12: the address wraps below zero. -/
theorem test_ld :
    (stepAt 0x2500#16 0xFFFF#16 [] [(0xFF00#16, 0x0042#16)]).map (fun t => (t.reg 2, t.cond, t.pc)) =
      some (0x0042#16, .pos, 0x0000#16) := by decide

/-- V6 row 3. -/
theorem test_ldi :
    (stepAt 0xA202#16 0x3000#16 [] [(0x3003#16, 0x4000#16), (0x4000#16, 0x1234#16)]).map (fun t => (t.reg 1, t.cond)) =
      some (0x1234#16, .pos) := by decide

/-- V6 row 6: the sum wraps. -/
theorem test_ldr :
    (stepAt 0x6960#16 0x3000#16 [(5, 0x0010#16)] [(0xFFF0#16, 0x7FFF#16)]).map (fun t => (t.reg 4, t.cond)) =
      some (0x7FFF#16, .pos) := by decide

/-- V6 row 7: the base is also the destination. -/
theorem test_ldr_same_register :
    (stepAt 0x6480#16 0x3000#16 [(2, 0x5000#16)] [(0x5000#16, 0x5008#16)]).map (fun t => t.reg 2) = some 0x5008#16 := by
  decide

/-- S7a and V6 row 10. -/
theorem test_lea :
    (stepAt 0xE201#16 0x3000#16 [] []).map (fun t => (t.reg 1, t.cond)) = some (0x3002#16, .pos) ∧
    (stepAt 0xEEFF#16 0x7F80#16 [] []).map (fun t => (t.reg 7, t.cond)) = some (0x8080#16, .neg) := by decide

/-- V7 row 1: a store over itself. -/
theorem test_st :
    (stepAt 0x33FF#16 0x3000#16 [(1, 0xABCD#16)] []).map (fun t => (t.memPeek 0x3000#16, t.pc, t.cond)) =
      some (0xABCD#16, 0x3001#16, .zero) := by decide

/-- V7 rows 3 and 4. -/
theorem test_sti :
    (stepAt 0xB401#16 0x3000#16 [(2, 0x0007#16)] [(0x3002#16, 0x5000#16)]).map
      (fun t => (t.memPeek 0x5000#16, t.memPeek 0x3002#16)) = some (0x0007#16, 0x5000#16) ∧
    (stepAt 0xB401#16 0x3000#16 [(2, 0x0007#16)] [(0x3002#16, 0x3002#16)]).map (fun t => t.memPeek 0x3002#16) =
      some 0x0007#16 := by decide

/-- V7 row 6: the sum wraps. -/
theorem test_str :
    (stepAt 0x73BF#16 0x3000#16 [(6, 0x0000#16), (1, 0x0011#16)] []).map (fun t => t.memPeek 0xFFFF#16) =
      some 0x0011#16 := by decide

/-- V7 row 8: a store to `KBD_STATUS` has no device action. -/
theorem test_str_keyboard :
    (stepAt 0x7E40#16 0x3000#16 [(1, 0xFE00#16), (7, 0x1234#16)] []).map (fun t => (t.memPeek 0xFE00#16, t.conOut)) =
      some (0x1234#16, []) := by decide

/-- V8: GETC with a character pending, COND kept. -/
theorem test_getc :
    (ran (step { (start 0x3000#16 [(0, 0xBEEF#16)] []).placeWord 0xF020#16 with conIn := [0x41#8], cond := .neg })).map
      (fun t => (t.reg 0, t.cond, t.conIn, t.conOut, t.pc)) = some (0x0041#16, .neg, [], [], 0x3001#16) := by decide

/-- V8: GETC without one is held. -/
theorem test_getc_held :
    ran (step (State.reset.placeWord 0xF020#16)) = some { State.reset.placeWord 0xF020#16 with waiting := true } := by
  decide

/-- V8: OUT. -/
theorem test_out :
    (stepAt 0xF021#16 0x3000#16 [(0, 0x1261#16)] []).map (fun t => (t.conOut, t.pc)) =
      some ([.write 0x61#8, .flush], 0x3001#16) := by decide

/-- V8: PUTS writes the low byte of each cell. -/
theorem test_puts :
    (stepAt 0xF022#16 0x3000#16 [(0, 0x4000#16)] [(0x4000#16, 0x4100#16), (0x4001#16, 0x0142#16)]).map (·.conOut) =
      some [.write 0x00#8, .write 0x42#8, .flush] := by decide

/-- V8: PUTS ends at the end of memory. -/
theorem test_puts_does_not_wrap :
    (stepAt 0xF022#16 0x3000#16 [(0, 0xFFFE#16)]
      [(0xFFFE#16, 0x0041#16), (0xFFFF#16, 0x0042#16), (0x0000#16, 0x0043#16)]).map (·.conOut) =
      some [.write 0x41#8, .write 0x42#8, .flush] := by decide

/-- V8: IN; the 19 bytes are those of `Enter a character: `. -/
theorem test_in :
    (ran (step { State.reset.placeWord 0xF023#16 with conIn := [0x7A#8] })).map (fun t => (t.reg 0, t.conOut, t.conIn)) =
      some (0x007A#16,
        [0x45, 0x6E, 0x74, 0x65, 0x72, 0x20, 0x61, 0x20, 0x63, 0x68, 0x61, 0x72, 0x61, 0x63, 0x74, 0x65, 0x72, 0x3A, 0x20,
          0x7A].map (fun n => .write (BitVec.ofNat 8 n)), []) := by decide

/-- V8: the two PUTSP rows. -/
theorem test_putsp :
    (stepAt 0xF024#16 0x3000#16 [(0, 0x4000#16)] [(0x4000#16, 0x6548#16), (0x4001#16, 0x006C#16)]).map (·.conOut) =
      some [.write 0x48#8, .write 0x65#8, .write 0x6C#8, .flush] ∧
    (stepAt 0xF024#16 0x3000#16 [(0, 0x4000#16)] [(0x4000#16, 0x4100#16)]).map (·.conOut) =
      some [.write 0x00#8, .write 0x41#8, .flush] := by decide

/-- V8 and S6: HALT, with and without ignored bits. -/
theorem test_halt :
    [0xF025#16, 0xFF25#16].map (fun w => (stepAt w 0x3000#16 [] []).map fun t => (t.run, t.pc, t.cond, t.conOut)) =
      [some (.halted, 0x3001#16, .zero,
          [.write 0x48#8, .write 0x41#8, .write 0x4C#8, .write 0x54#8, .write 0x0A#8, .flush]),
       some (.halted, 0x3001#16, .zero,
          [.write 0x48#8, .write 0x41#8, .write 0x4C#8, .write 0x54#8, .write 0x0A#8, .flush])] := by decide

/-- V8: undefined vectors. -/
theorem test_undefined_vectors :
    [0xF0FF#16, 0xF000#16, 0xF026#16, 0xF01F#16].map
      (fun w => (stepAt w 0x3000#16 [] []).map fun t => (t.run, t.fatalCause, t.conOut)) =
    [0xF0FF#16, 0xF000#16, 0xF026#16, 0xF01F#16].map
      (fun w => some (.fatal, some ⟨.illegalTrapVector, w⟩, [])) := by decide

/-- V9: RTI, at the top of memory too. -/
theorem test_rti :
    (stepAt 0x8FFF#16 0x3000#16 [] []).map (fun t => (t.run, t.fatalCause, t.pc)) =
      some (.fatal, some ⟨.reservedOpcode, 0x8FFF#16⟩, 0x3001#16) ∧
    (stepAt 0x8000#16 0xFFFF#16 [] []).map (fun t => (t.run, t.pc)) = some (.fatal, 0x0000#16) := by decide

/-- V9: RES. -/
theorem test_res :
    (stepAt 0xD123#16 0x3000#16 [] []).map (fun t => (t.run, t.fatalCause, t.pc)) =
      some (.fatal, some ⟨.reservedOpcode, 0xD123#16⟩, 0x3001#16) := by decide

/-! ### The keyboard, the stops, the loader -/

/-- V10 rows 2, 3 and 4. -/
theorem test_keyboard_reads :
    let r2 := State.memRead { State.reset with conIn := [0x61#8, 0x62#8] } 0xFE00#16
    let r3 := r2.2.memRead 0xFE00#16
    let r4 := r3.2.memRead 0xFE00#16
    (r2.1, r2.2.memPeek 0xFE00#16, r2.2.memPeek 0xFE02#16, r2.2.conIn) = (0x8000#16, 0x8000#16, 0x0061#16, [0x62#8]) ∧
    (r3.1, r3.2.memPeek 0xFE02#16, r3.2.conIn) = (0x8000#16, 0x0062#16, []) ∧
    (r4.1, r4.2.memPeek 0xFE00#16, r4.2.memPeek 0xFE02#16) = (0x0000#16, 0x0000#16, 0x0062#16) := by decide

/-- V10 rows 8 and 9: a fetch from `KBD_STATUS`. -/
theorem test_keyboard_fetch :
    (ran (step { State.reset with pc := 0xFE00#16 })).map (fun t => (t.run, t.pc)) = some (.running, 0xFE01#16) ∧
    (ran (step { State.reset with pc := 0xFE00#16, conIn := [0x41#8] })).map
      (fun t => (t.run, t.pc, t.memPeek 0xFE02#16, t.conIn)) = some (.fatal, 0xFE01#16, 0x0041#16, []) := by decide

/-- spec/92_eei_decisions.md D21: a byte that arrives between the two polls of one LDI is seen by the second. The pointer
cell is `KBD_STATUS`, here at address 0, so that the empty first poll makes it point at itself (R102, R45). -/
theorem test_arrival_inside_a_step :
    (ran (exec (.ldi 1 0x1FF#9)
      { State.reset with
        pc := 0x0001#16, pollEnv := [[], [0x41#8]], cfg := { defaultConfig with kbdStatusAddr := 0x0000#16 } })).map
      (fun t => (t.reg 1, t.cond, t.memPeek 0xFE02#16, t.conIn)) = some (0x8000#16, .neg, 0x0041#16, []) := by decide

/-- V11: cancellation, and a machine that has stopped. -/
theorem test_cancel :
    ran (step { State.reset with cancel := true }) = some { State.reset with cancel := true, run := .cancelled } ∧
    ran (step { State.reset with run := .halted }) = some { State.reset with run := .halted } := by decide

/-- S6 and S7a: the bytes of the two image files. -/
theorem test_image_bytes :
    imageOfBytes [0x30#8, 0x00#8, 0xF0#8, 0x25#8] = some (0x3000#16, [0xF025#16]) ∧
    imageOfBytes [0x30#8, 0x00#8, 0xE2#8, 0x01#8, 0xF0#8, 0x25#8] = some (0x3000#16, [0xE201#16, 0xF025#16]) := by decide

/-- spec/70_reset_and_hazards.md R172: words past address 65535 are dropped, not wrapped. -/
theorem test_image_cap : loadImage [] (0xFFFF#16, [0x0001#16, 0x0002#16]) = [(0xFFFF, 0x0001#16)] := by decide

/-- The instruction that `withFetchWord` places is the first one run after reset. -/
theorem test_withFetchWord :
    (ran (step (State.reset.withFetchWord 16 0x1025))).map (fun t => (t.reg 0, t.pc)) = some (0x0005#16, 0x3001#16) := by
  decide

/-! ### Witnesses: states and operands that meet the hypotheses of the statements -/

/-- DecodeOfEncodeIsTheInstruction: both ends of the one constructor with a check. -/
theorem witness_wf :
    (Instr.trapUndefined 0#4 0x1F#8).wf = true ∧ (Instr.trapUndefined 0xF#4 0x26#8).wf = true ∧
    (Instr.addImm 7 0 0x10#5).wf = true := by decide

/-- IgnoredBitsChangeNothing: two words that differ, for each form with ignored bits. -/
theorem witness_ignored_bits :
    [(0x1419#16, 0x1401#16), (0x5418#16, 0x5400#16), (0x9E00#16, 0x9E3F#16), (0xCE80#16, 0xC080#16),
      (0x46FF#16, 0x40C0#16), (0xFF25#16, 0xF025#16), (0x8FFF#16, 0x8000#16), (0xD123#16, 0xD000#16)].all
      (fun p => p.1 != p.2 && (p.1 &&& readMask p.1) == (p.2 &&& readMask p.1)) = true := by decide

/-- EncodeOfDecodeIsTheCanonicalWord: a word that is no TRAP, and a service. -/
theorem witness_canonical :
    opcodeOf 0x1419#16 ≠ .rti ∧ opcodeOf 0x1419#16 ≠ .res ∧ opcodeOf 0x1419#16 ≠ .trap ∧
    opcodeOf 0xFF25#16 = .trap ∧ isServiceVector ((0xFF25#16 : Word).extractLsb' 0 8) = true := by decide

/-- StepExecutesTheWordAtPc, ZeroWordOnlyAdvancesThePc: the reset state; a held machine for the second way in. -/
theorem witness_step :
    State.reset.run = .running ∧ State.reset.waiting = false ∧ State.reset.admitEnv.cancel = false ∧
    State.reset.pc ≠ State.reset.cfg.kbdStatusAddr ∧ State.reset.memPeek State.reset.pc = 0x0000#16 ∧
    State.run { State.reset with waiting := true, cancel := true } = .running ∧
    State.waiting { State.reset with waiting := true, cancel := true } = true := by decide

/-- StoppedMachineStaysAsItIs: each of the three stops. -/
theorem witness_stopped :
    State.run { State.reset with run := .halted } ≠ .running ∧ State.run { State.reset with run := .fatal } ≠ .running ∧
    State.run { State.reset with run := .cancelled } ≠ .running := by decide

/-- A machine at the word `w`, held or not, whose environment then supplies `bs` and a cancellation or none. -/
def waitingAt (w : Word) (waiting : Bool) (bs : List Byte) (cancel : Bool) : State :=
  { State.reset.placeWord w with waiting := waiting, env := [⟨bs, cancel⟩] }

/-- CancelStopsBeforeTheFetch, first clause. -/
theorem witness_cancel :
    State.reset.run = .running ∧ State.reset.waiting = false ∧
      (State.admitEnv { State.reset with env := [⟨[], true⟩] }).cancel = true := by decide

/-- CancelStopsBeforeTheFetch, its other clauses: a request during a wait that does not end and that does, for GETC and
for IN. -/
theorem witness_cancel_while_waiting :
    [waitingAt 0xF020#16 true [] true, waitingAt 0xF020#16 true [0x41#8] true, waitingAt 0xF023#16 true [] true,
      waitingAt 0xF023#16 true [0x41#8] true].map
      (fun s => (s.run, s.waiting && s.pc != s.cfg.kbdStatusAddr && readsConsole (decode (s.memPeek s.pc)),
        s.admitEnv.conIn, s.admitEnv.cancel)) =
    [(.running, true, [], true), (.running, true, [0x41#8], true), (.running, true, [], true),
      (.running, true, [0x41#8], true)] := by decide

/-- GetcAndInWaitForACharacter: a step that begins and one that goes on waiting, with and without a character. -/
theorem witness_wait :
    [waitingAt 0xF020#16 false [] false, waitingAt 0xF020#16 true [0x41#8] false, waitingAt 0xF023#16 true [] false,
      waitingAt 0xF023#16 false [0x41#8] false].map
      (fun s => (s.run, s.pc != s.cfg.kbdStatusAddr && readsConsole (decode (s.memPeek s.pc)), s.admitEnv.conIn,
        s.admitEnv.cancel)) =
    [(.running, true, [], false), (.running, true, [0x41#8], false), (.running, true, [], false),
      (.running, true, [0x41#8], false)] := by decide

/-- OnlyGetcAndInWait: a step after which the machine waits. -/
theorem witness_waiting :
    ∃ t, (State.reset.placeWord 0xF023#16).run = .running ∧ step (State.reset.placeWord 0xF023#16) = .next t ∧
      t.waiting = true := ⟨_, rfl, rfl, rfl⟩

/-- StepAdmitsTheEnvironmentsMove: no move and one, no arrival and one, and a step that takes both. -/
theorem witness_environment :
    State.reset.env = [] ∧ State.reset.pollEnv = [] ∧ State.reset.run = .running ∧
    (ran (step { State.reset.setPc 0xFE00#16 with
      env := [⟨[0x41#8], false⟩, ⟨[], true⟩], pollEnv := [[0x42#8], [0x43#8]] })).map
      (fun t => (t.env, t.pollEnv, t.conIn)) = some ([⟨[], true⟩], [[0x43#8]], [0x42#8]) := by decide

/-- FetchFromKeyboardStatusPolls: with a character and without one. -/
theorem witness_keyboard_fetch :
    ∀ bs ∈ [[], [0x41#8, 0x42#8]],
      State.run { State.reset with pc := 0xFE00#16, conIn := bs } = .running ∧
      (State.admitEnv { State.reset with pc := 0xFE00#16, conIn := bs }).cancel = false ∧
      State.reset.cfg.wf = true ∧ State.reset.cfg.kbdStatusAddr = 0xFE00#16 ∧
      (State.admitEnv { State.reset with pc := 0xFE00#16, conIn := bs }).admitPoll.conIn = bs := by decide

/-- StoreIsSeenByTheNextFetch: the state of V7 row 2. -/
theorem witness_self_modifying :
    let s := (start 0x3000#16 [(1, 0xF025#16)] []).placeWord 0x3200#16
    s.run = .running ∧ s.waiting = false ∧ s.cancel = false ∧ s.env = [] ∧ s.pc ≠ s.cfg.kbdStatusAddr ∧
      s.pc + 1#16 ≠ s.cfg.kbdStatusAddr ∧ s.memPeek s.pc = encode (.st 1 0#9) := by decide

/-- StartStateHoldsTheStatedValues: a cell outside an image, and the first and last cell of one at the top of memory. -/
theorem witness_image :
    (¬((0xFFFE#16 : Word).toNat ≤ (0xFFFD#16 : Word).toNat ∧
      (0xFFFD#16 : Word).toNat < (0xFFFE#16 : Word).toNat + [0x0001#16, 0x0002#16].length)) ∧
    (0xFFFE#16 : Word).toNat + 0 < 65536 ∧ (0xFFFE#16 : Word).toNat + 1 < 65536 ∧
    1 < ([0x0001#16, 0x0002#16] : List Word).length := by decide

/-- ReadPollsOnlyAtKeyboardStatus, KeyboardPollDepositsTheCharacter: both addresses, no character, one that was pending,
one that arrives before the poll. -/
theorem witness_keyboard :
    State.reset.cfg.wf = true ∧ 0xFE00#16 = State.reset.cfg.kbdStatusAddr ∧ 0xFE02#16 ≠ State.reset.cfg.kbdStatusAddr ∧
    State.reset.admitPoll.conIn = [] ∧ (State.admitPoll { State.reset with conIn := [0x61#8] }).conIn = 0x61#8 :: [] ∧
    (State.admitPoll { State.reset with pollEnv := [[0x62#8]] }).conIn = 0x62#8 :: [] := by decide

/-- ExtensionFillsTheHighBits: the narrowest and the widest field. -/
theorem witness_extension : 0 < 1 ∧ 1 ≤ 16 ∧ 0 < 16 ∧ 16 ≤ 16 ∧ 15 < 16 := by decide

/-- CondFollowsTheDestination and the whole-machine rules over `exec`: one instruction that derives COND and one that
does not, each with its next state. -/
theorem witness_exec :
    (∃ t, exec (.addImm 1 1 0x1F#5) State.reset = .next t ∧ flagReg (.addImm 1 1 0x1F#5) = some 1 ∧
      destReg (.addImm 1 1 0x1F#5) ≠ some 0 ∧ writesPc (.addImm 1 1 0x1F#5) = false ∧
      readsConsole (.addImm 1 1 0x1F#5) = false ∧ storeTarget (.addImm 1 1 0x1F#5) State.reset ≠ some 0x3000#16 ∧
      polls (.addImm 1 1 0x1F#5) State.reset = false ∧ t.cond = .neg) ∧
    (∃ t, exec (.st 1 0#9) State.reset = .next t ∧ flagReg (.st 1 0#9) = none ∧ destReg (.st 1 0#9) ≠ some 1 ∧
      storeTarget (.st 1 0#9) State.reset ≠ some 0x2FFF#16 ∧ t.cond = .zero) :=
  ⟨⟨_, rfl, by decide⟩, ⟨_, rfl, by decide⟩⟩

/-- PcChangesOnlyByControlTransfer, MemoryChangesOnlyByStoreAndPoll: a service with a character, a load that polls. -/
theorem witness_exec_console :
    (∃ t, exec .trapGetc { State.reset with conIn := [0x41#8] } = .next t ∧ writesPc .trapGetc = false ∧
      readsConsole .trapGetc = true ∧ State.conIn { State.reset with conIn := [0x41#8] } ≠ []) ∧
    (∃ t, exec (.ldr 0 1 0#6) (State.reset.setReg 1 0xFE00#16) = .next t ∧
      polls (.ldr 0 1 0#6) (State.reset.setReg 1 0xFE00#16) = true ∧
      storeTarget (.ldr 0 1 0#6) (State.reset.setReg 1 0xFE00#16) ≠ some 0xFE01#16 ∧
      0xFE01#16 ≠ State.reset.cfg.kbdStatusAddr ∧ 0xFE01#16 ≠ State.reset.cfg.kbdDataAddr) :=
  ⟨⟨_, rfl, by decide⟩, ⟨_, rfl, by decide⟩⟩

/-- The decoding clauses of the statements of the instructions: for each a word with the top bits and the form bit the
clause names, all other bits one. -/
theorem witness_decode_clauses :
    [0x0FFF#16, 0x1FDF#16, 0x1FFF#16, 0x2FFF#16, 0x3FFF#16, 0x47FF#16, 0x4FFF#16, 0x5FDF#16, 0x5FFF#16, 0x6FFF#16,
      0x7FFF#16, 0x8FFF#16, 0x9FFF#16, 0xAFFF#16, 0xBFFF#16, 0xCFFF#16, 0xDFFF#16, 0xEFFF#16].map
      (fun w : Word => (w.extractLsb' 12 4, w[5], w[11])) =
    [(0b0000#4, true, true), (0b0001#4, false, true), (0b0001#4, true, true), (0b0010#4, true, true),
      (0b0011#4, true, true), (0b0100#4, true, false), (0b0100#4, true, true), (0b0101#4, false, true),
      (0b0101#4, true, true), (0b0110#4, true, true), (0b0111#4, true, true), (0b1000#4, true, true),
      (0b1001#4, true, true), (0b1010#4, true, true), (0b1011#4, true, true), (0b1100#4, true, true),
      (0b1101#4, true, true), (0b1110#4, true, true)] := by decide

/-- The vectors of the services and the undefined vectors next to them and at both ends. -/
theorem witness_trap_clauses :
    [0xF020#16, 0xFF21#16, 0xF022#16, 0xFF23#16, 0xF024#16, 0xFF25#16].map
      (fun w : Word => (w.extractLsb' 12 4, w.extractLsb' 0 8)) =
      [(0b1111#4, 0x20#8), (0b1111#4, 0x21#8), (0b1111#4, 0x22#8), (0b1111#4, 0x23#8), (0b1111#4, 0x24#8),
        (0b1111#4, 0x25#8)] ∧
    [0xF000#16, 0xF01F#16, 0xF026#16, 0xFFFF#16].map
      (fun w : Word => (w.extractLsb' 12 4, (w.extractLsb' 0 8).toNat)) =
      [(0b1111#4, 0x00), (0b1111#4, 0x1F), (0b1111#4, 0x26), (0b1111#4, 0xFF)] := by decide

/-- LdiThroughAPointerPollsTheKeyboard: the pointer of P4, with a character and without one. -/
theorem witness_ldi_keyboard :
    ∀ bs ∈ [[], [0x61#8]],
      let s : State := { start 0x3003#16 [] [(0x3007#16, 0xFE00#16)] with conIn := bs }
      s.cfg.wf = true ∧ s.pcRel 4#9 ≠ s.cfg.kbdStatusAddr ∧ s.memPeek (s.pcRel 4#9) = s.cfg.kbdStatusAddr ∧
        s.admitPoll.conIn = bs := by decide

/-- OnlyTheListedCausesStopTheMachine: a step that leaves the running state for each of the four causes. -/
theorem witness_stops :
    (∃ t, step (State.reset.placeWord 0x8000#16) = .next t ∧ t.run = .fatal) ∧
    (∃ t, step (State.reset.placeWord 0xF026#16) = .next t ∧ t.run = .fatal) ∧
    (∃ t, step (State.reset.placeWord 0xF025#16) = .next t ∧ t.run = .halted) ∧
    (∃ t, step { State.reset with cancel := true } = .next t ∧ t.run = .cancelled) :=
  ⟨⟨_, rfl, rfl⟩, ⟨_, rfl, rfl⟩, ⟨_, rfl, rfl⟩, ⟨_, rfl, rfl⟩⟩

/-- OutputComesOnlyFromServices: a step that writes to the console. -/
theorem witness_output :
    (stepAt 0xF021#16 0x3000#16 [] []).map (fun t => t.conOut != []) = some true := by decide

/-- EveryStepKeepsTheInvariant: the reset state with an instruction in memory. -/
theorem witness_inv : Inv (State.reset.placeWord 0xF023#16) ∧ ∃ t, step (State.reset.placeWord 0xF023#16) = .next t where
  left :=
    { memWf := by decide
      cfgWf := by decide
      fatalIff := by decide
      fatalFits := by intro c h; cases h
      waitingAt := by decide }
  right := ⟨_, rfl⟩

/-- EveryStartSatisfiesTheInvariant: the default parameters. -/
theorem witness_config : defaultConfig.wf = true := by decide

end Sys2Proof.Tests
end

section
/-! Extension of fields and bytes to 16 bits (spec/00_scope.md R9). -/

namespace Sys2Proof.Machine

/-- Up to 16 bits, the signed value of a field fits a word, so extension loses nothing of it. -/
theorem sext16_toInt {n : Nat} (f : BitVec n) (hn : n ≤ 16) : (sext16 f).toInt = f.toInt :=
  BitVec.toInt_signExtend_of_le hn

/-- The sign bit of a field of `n` bits is its bit `n - 1`. -/
theorem sext16_getLsbD {n : Nat} (f : BitVec n) {i : Nat} (hi : i < 16) :
    (sext16 f).getLsbD i = if i < n then f.getLsbD i else f.getLsbD (n - 1) := by
  rw [sext16, BitVec.getLsbD_signExtend, BitVec.msb_eq_getLsbD_last]
  simp [hi]

@[simp] theorem sext16_word (v : Word) : sext16 v = v := BitVec.signExtend_eq v

/-- The width of a byte is stated in the bit itself, so that no bound on `i` is needed: past bit 7 both sides are
`false`, below it bit `i` is also below 16. -/
theorem zextByte_getLsbD (c : Byte) (i : Nat) : (zextByte c).getLsbD i = (decide (i < 8) && c.getLsbD i) := by
  rw [zextByte, BitVec.getLsbD_setWidth]
  by_cases hi : i < 8
  · simp [hi, show i < 16 by omega]
  · simp [hi, BitVec.getLsbD_of_ge c i (by omega)]

/-- Settles O20: the two readings of sign extension, by value and by bit, and zero extension, each by its lemma. -/
theorem extensionFillsTheHighBits : Obligations.ExtensionFillsTheHighBits :=
  ⟨fun n f _ hn => ⟨sext16_toInt f hn, fun i hi => sext16_getLsbD f hi⟩, sext16_word, zextByte_getLsbD⟩

end Sys2Proof.Machine
end

section
/-! What an instruction does to COND (spec/10_state.md R25). -/

namespace Sys2Proof.Machine

variable {s t : State} {i : Instr} {dr : RegIdx}

/-- The seven mnemonics that derive COND all end in one write of their destination, after whatever reads they make. -/
theorem exec_eq_writeDR_of_flagReg (s : State) (hi : flagReg i = some dr) :
    ∃ (u : State) (v : Word), exec i s = .next (u.writeDR dr v) := by
  cases i with
  | addReg | addImm | andReg | andImm | not | lea | ld | ldr | ldi => cases hi; exact ⟨_, _, rfl⟩
  | _ => cases hi

/-- GETC keeps COND, held or served (spec/44_trap.md R120; spec/60_exceptions.md R156). -/
theorem trapGetc_cond (h : exec .trapGetc s = .next t) : t.cond = s.cond := by
  cases hc : s.conIn with
  | nil => rw [exec_trapGetc_none s hc] at h; cases h; exact hold_cond s
  | cons c rest => rw [exec_trapGetc_some s hc] at h; cases h; rfl

/-- IN keeps COND, held or served (spec/44_trap.md R120; spec/60_exceptions.md R156). -/
theorem trapIn_cond (h : exec .trapIn s = .next t) : t.cond = s.cond := by
  cases hc : s.conIn with
  | nil => rw [exec_trapIn_none s hc] at h; cases h; exact hold_cond s
  | cons c rest => rw [exec_trapIn_some s hc] at h; cases h; rfl

/-- An instruction outside the seven mnemonics writes no COND: its pieces are control transfers, stores, console actions
and stops, and the one read among them (STI's pointer) at most polls. -/
theorem exec_cond_of_flagReg_none (hi : flagReg i = none) (h : exec i s = .next t) : t.cond = s.cond := by
  cases i with
  | addReg | addImm | andReg | andImm | not | lea | ld | ldr | ldi => cases hi
  | br mask off => rw [exec_br] at h; cases h; split <;> rfl
  | sti sr off => rw [exec_sti] at h; cases h; exact memRead_cond s (s.pcRel off)
  | trapGetc => exact trapGetc_cond h
  | trapIn => exact trapIn_cond h
  | jmp | jsr | jsrr | st | str | rti | res | trapOut | trapPuts | trapPutsp | trapHalt | trapUndefined => cases h; rfl

/-- Settles O21: for the seven mnemonics COND is derived from the value written, which the destination then holds; every
other instruction keeps COND. -/
theorem condFollowsTheDestination : Obligations.CondFollowsTheDestination := by
  intro i s t h
  cases hi : flagReg i with
  | some dr =>
    obtain ⟨u, v, hw⟩ := exec_eq_writeDR_of_flagReg s hi
    obtain rfl : u.writeDR dr v = t := by simpa [hw] using h
    simp only [writeDR_cond, writeDR_reg_same]
    rfl
  | none => exact exec_cond_of_flagReg_none hi h

end Sys2Proof.Machine
end

section
/-! A single store, and a device-aware read (spec/20_memory.md R42, R43). -/

namespace Sys2Proof.Machine

/-- Settles O16: the value of each cell is the law of a read after a write, and `memWrite` updates `mem` alone. -/
theorem storeWritesOneCell : Obligations.StoreWritesOneCell := by
  intro s a v b
  exact ⟨memPeek_memWrite s a b v, rfl⟩

/-- Settles O18: the two clauses are the two laws of the read, away from `KBD_STATUS_ADDR` and there. -/
theorem readPollsOnlyAtKeyboardStatus : Obligations.ReadPollsOnlyAtKeyboardStatus := by
  intro s a
  refine ⟨memRead_ordinary s, ?_⟩
  rintro rfl
  exact memRead_status s

end Sys2Proof.Machine
end

section
/-! The decoder, row by row (spec/30_encoding.md R64 to R68): what each opcode, form bit and vector selects. -/

namespace Sys2Proof

variable {w : Word}

theorem decode_br (h : opcodeOf w = .br) : decode w = .br (field w 9 3) (field w 0 9) := by simp [decode, h]
theorem decode_addReg (h : opcodeOf w = .add) (form : w[5] = false) :
    decode w = .addReg (regField w 9) (regField w 6) (regField w 0) := by simp [decode, h, form]
theorem decode_addImm (h : opcodeOf w = .add) (form : w[5] = true) :
    decode w = .addImm (regField w 9) (regField w 6) (field w 0 5) := by simp [decode, h, form]
theorem decode_ld (h : opcodeOf w = .ld) : decode w = .ld (regField w 9) (field w 0 9) := by simp [decode, h]
theorem decode_st (h : opcodeOf w = .st) : decode w = .st (regField w 9) (field w 0 9) := by simp [decode, h]
theorem decode_jsrr (h : opcodeOf w = .jsr) (form : w[11] = false) : decode w = .jsrr (regField w 6) := by
  simp [decode, h, form]
theorem decode_jsr (h : opcodeOf w = .jsr) (form : w[11] = true) : decode w = .jsr (field w 0 11) := by
  simp [decode, h, form]
theorem decode_andReg (h : opcodeOf w = .and) (form : w[5] = false) :
    decode w = .andReg (regField w 9) (regField w 6) (regField w 0) := by simp [decode, h, form]
theorem decode_andImm (h : opcodeOf w = .and) (form : w[5] = true) :
    decode w = .andImm (regField w 9) (regField w 6) (field w 0 5) := by simp [decode, h, form]
theorem decode_ldr (h : opcodeOf w = .ldr) : decode w = .ldr (regField w 9) (regField w 6) (field w 0 6) := by
  simp [decode, h]
theorem decode_str (h : opcodeOf w = .str) : decode w = .str (regField w 9) (regField w 6) (field w 0 6) := by
  simp [decode, h]
theorem decode_rti (h : opcodeOf w = .rti) : decode w = .rti (field w 0 12) := by simp [decode, h]
theorem decode_not (h : opcodeOf w = .not) : decode w = .not (regField w 9) (regField w 6) := by simp [decode, h]
theorem decode_ldi (h : opcodeOf w = .ldi) : decode w = .ldi (regField w 9) (field w 0 9) := by simp [decode, h]
theorem decode_sti (h : opcodeOf w = .sti) : decode w = .sti (regField w 9) (field w 0 9) := by simp [decode, h]
theorem decode_jmp (h : opcodeOf w = .jmp) : decode w = .jmp (regField w 6) := by simp [decode, h]
theorem decode_res (h : opcodeOf w = .res) : decode w = .res (field w 0 12) := by simp [decode, h]
theorem decode_lea (h : opcodeOf w = .lea) : decode w = .lea (regField w 9) (field w 0 9) := by simp [decode, h]

theorem decode_trap (h : opcodeOf w = .trap) : decode w = decodeTrap w := by simp [decode, h]
theorem decode_trapGetc (h : opcodeOf w = .trap) (vec : field w 0 8 = 0x20#8) : decode w = .trapGetc := by
  simp [decode_trap h, decodeTrap, vec]
theorem decode_trapOut (h : opcodeOf w = .trap) (vec : field w 0 8 = 0x21#8) : decode w = .trapOut := by
  simp [decode_trap h, decodeTrap, vec]
theorem decode_trapPuts (h : opcodeOf w = .trap) (vec : field w 0 8 = 0x22#8) : decode w = .trapPuts := by
  simp [decode_trap h, decodeTrap, vec]
theorem decode_trapIn (h : opcodeOf w = .trap) (vec : field w 0 8 = 0x23#8) : decode w = .trapIn := by
  simp [decode_trap h, decodeTrap, vec]
theorem decode_trapPutsp (h : opcodeOf w = .trap) (vec : field w 0 8 = 0x24#8) : decode w = .trapPutsp := by
  simp [decode_trap h, decodeTrap, vec]
theorem decode_trapHalt (h : opcodeOf w = .trap) (vec : field w 0 8 = 0x25#8) : decode w = .trapHalt := by
  simp [decode_trap h, decodeTrap, vec]

/-- The fallback row: a vector that selects no service (R67, R128). -/
theorem decode_trapUndefined (h : opcodeOf w = .trap) (vec : isServiceVector (field w 0 8) = false) :
    decode w = .trapUndefined (field w 8 4) (field w 0 8) := by
  rw [decode_trap h]
  rcases decodeTrap_cases w with ⟨e, _⟩ | ⟨e, _⟩ | ⟨e, _⟩ | ⟨e, _⟩ | ⟨e, _⟩ | ⟨e, _⟩ | ⟨_, d⟩
  case inr.inr.inr.inr.inr.inr => exact d
  all_goals
    rw [e] at vec
    exact absurd vec (by decide)

theorem isServiceVector_iff (v : BitVec 8) : isServiceVector v = true ↔ 0x20 ≤ v.toNat ∧ v.toNat ≤ 0x25 := by
  simp [isServiceVector, BitVec.le_def]

/-- Decoding keeps the opcode (R65, R68). -/
@[simp] theorem opcode_decode (w : Word) : (decode w).opcode = opcodeOf w := by
  cases h : opcodeOf w with
  | add | and | jsr => simp only [decode, h]; split <;> rfl
  | trap =>
    rw [decode_trap h]
    rcases decodeTrap_cases w with ⟨_, d⟩ | ⟨_, d⟩ | ⟨_, d⟩ | ⟨_, d⟩ | ⟨_, d⟩ | ⟨_, d⟩ | ⟨_, d⟩ <;> rw [d] <;> rfl
  | br | ld | st | ldr | str | rti | not | ldi | sti | jmp | res | lea => simp [decode, h, Instr.opcode]

/-- Only TRAP decodes to a constructor with a check, and there the check is the dispatcher's own test (R67). -/
theorem wf_decode (w : Word) : (decode w).wf = true := by
  cases h : opcodeOf w with
  | add | and | jsr => simp only [decode, h]; split <;> rfl
  | trap =>
    rw [decode_trap h]
    rcases decodeTrap_cases w with ⟨_, d⟩ | ⟨_, d⟩ | ⟨_, d⟩ | ⟨_, d⟩ | ⟨_, d⟩ | ⟨_, d⟩ | ⟨v, d⟩
    case inr.inr.inr.inr.inr.inr => rw [d, Instr.wf, v]; rfl
    all_goals rw [d]; rfl
  | br | ld | st | ldr | str | rti | not | ldi | sti | jmp | res | lea => simp [decode, h, Instr.wf]

end Sys2Proof
end

section
/-! Decoding and encoding are inverse (spec/30_encoding.md R62, R68). -/

namespace Sys2Proof

open Laws

/-- Settles O2: the encoded word has the instruction's opcode and, in the fields its format names, its operands; the
decoder's row for that opcode reads them back. -/
theorem decodeOfEncodeIsTheInstruction : Obligations.DecodeOfEncodeIsTheInstruction := by
  intro i wf
  have op := opcodeOf_encode i
  cases i with
  | br mask off => obtain ⟨f, g⟩ := OperandFields.br mask off; rw [decode_br op, f, g]
  | addReg dr sr1 sr2 => obtain ⟨f, g, form, k⟩ := OperandFields.addReg dr sr1 sr2; rw [decode_addReg op form, f, g, k]
  | addImm dr sr1 imm => obtain ⟨f, g, form, k⟩ := OperandFields.addImm dr sr1 imm; rw [decode_addImm op form, f, g, k]
  | ld dr off => obtain ⟨f, g⟩ := OperandFields.ld dr off; rw [decode_ld op, f, g]
  | st sr off => obtain ⟨f, g⟩ := OperandFields.st sr off; rw [decode_st op, f, g]
  | jsrr base => obtain ⟨form, f⟩ := OperandFields.jsrr base; rw [decode_jsrr op form, f]
  | jsr off => obtain ⟨form, f⟩ := OperandFields.jsr off; rw [decode_jsr op form, f]
  | andReg dr sr1 sr2 => obtain ⟨f, g, form, k⟩ := OperandFields.andReg dr sr1 sr2; rw [decode_andReg op form, f, g, k]
  | andImm dr sr1 imm => obtain ⟨f, g, form, k⟩ := OperandFields.andImm dr sr1 imm; rw [decode_andImm op form, f, g, k]
  | ldr dr base off => obtain ⟨f, g, k⟩ := OperandFields.ldr dr base off; rw [decode_ldr op, f, g, k]
  | str sr base off => obtain ⟨f, g, k⟩ := OperandFields.str sr base off; rw [decode_str op, f, g, k]
  | rti low => rw [decode_rti op, OperandFields.rti low]
  | not dr sr => obtain ⟨f, g⟩ := OperandFields.not dr sr; rw [decode_not op, f, g]
  | ldi dr off => obtain ⟨f, g⟩ := OperandFields.ldi dr off; rw [decode_ldi op, f, g]
  | sti sr off => obtain ⟨f, g⟩ := OperandFields.sti sr off; rw [decode_sti op, f, g]
  | jmp base => rw [decode_jmp op, OperandFields.jmp base]
  | res low => rw [decode_res op, OperandFields.res low]
  | lea dr off => obtain ⟨f, g⟩ := OperandFields.lea dr off; rw [decode_lea op, f, g]
  | trapGetc => exact decode_trapGetc op OperandFields.trapGetc
  | trapOut => exact decode_trapOut op OperandFields.trapOut
  | trapPuts => exact decode_trapPuts op OperandFields.trapPuts
  | trapIn => exact decode_trapIn op OperandFields.trapIn
  | trapPutsp => exact decode_trapPutsp op OperandFields.trapPutsp
  | trapHalt => exact decode_trapHalt op OperandFields.trapHalt
  | trapUndefined ignored vec =>
    obtain ⟨f, g⟩ := OperandFields.trapUndefined ignored vec
    have notService : isServiceVector vec = false := by simpa [Instr.wf] using wf
    rw [decode_trapUndefined op (by rw [g]; exact notService), f, g]

/-- Settles O3: the decoder's result is well formed and keeps the opcode, whose number is the word's top four bits. -/
theorem everyWordDecodesByItsTopBits : Obligations.EveryWordDecodesByItsTopBits := by
  intro w
  exact ⟨wf_decode w, by rw [opcode_decode]; exact opcodeBits_opcodeOf w⟩

/-- Settles O1: each word is read through the decoder, which computes. -/
theorem workedWordsDecode : Obligations.WorkedWordsDecode := by
  unfold Obligations.WorkedWordsDecode
  decide

end Sys2Proof
end

section
/-! What the device-aware reads of an instruction leave (spec/20_memory.md R46), and what an instruction can do to the
machine, said once: the rules of the whole machine are read off `Effect`. -/

namespace Sys2Proof.Machine

variable (i : Instr) (s : State)

/-- The state in which an instruction has made its device-aware reads: two for LDI, one for LD, LDR and STI (R46). -/
def readState : State :=
  match i with
  | .ld _ off => (s.memRead (s.pcRel off)).2
  | .ldi _ off => ((s.indirect off).2.memRead (s.indirect off).1).2
  | .ldr _ base off => (s.memRead (s.baseRel base off)).2
  | .sti _ off => (s.indirect off).2
  | _ => s

/-- The reads change at most memory, the pending input and what is still to arrive before polls. -/
theorem readState_frame : readState i s =
    { s with mem := (readState i s).mem, conIn := (readState i s).conIn, pollEnv := (readState i s).pollEnv } := by
  cases i with
  | ld dr off => exact memRead_frame s (s.pcRel off)
  | ldr dr base off => exact memRead_frame s (s.baseRel base off)
  | sti sr off => exact memRead_frame s (s.pcRel off)
  | ldi dr off =>
    refine (memRead_frame (s.indirect off).2 (s.indirect off).1).trans ?_
    simp [readState, State.indirect]
  | _ => rfl

@[simp] theorem readState_regs : (readState i s).regs = s.regs := by rw [readState_frame]
@[simp] theorem readState_pc : (readState i s).pc = s.pc := by rw [readState_frame]
@[simp] theorem readState_run : (readState i s).run = s.run := by rw [readState_frame]
@[simp] theorem readState_fatalCause : (readState i s).fatalCause = s.fatalCause := by rw [readState_frame]
@[simp] theorem readState_conOut : (readState i s).conOut = s.conOut := by rw [readState_frame]
@[simp] theorem readState_cancel : (readState i s).cancel = s.cancel := by rw [readState_frame]
@[simp] theorem readState_waiting : (readState i s).waiting = s.waiting := by rw [readState_frame]
@[simp] theorem readState_env : (readState i s).env = s.env := by rw [readState_frame]
@[simp] theorem readState_cfg : (readState i s).cfg = s.cfg := by rw [readState_frame]
@[simp] theorem readState_reg (j : RegIdx) : (readState i s).reg j = s.reg j := by simp [State.reg]

/-- An instruction that does not poll is not changed by its reads. -/
theorem readState_of_not_polls {i : Instr} {s : State} (h : polls i s = false) : readState i s = s := by
  cases i with
  | ld dr off => simp [readState, memRead_ordinary s (show s.pcRel off ≠ s.cfg.kbdStatusAddr by simpa [polls] using h)]
  | ldr dr base off =>
    simp [readState, memRead_ordinary s (show s.baseRel base off ≠ s.cfg.kbdStatusAddr by simpa [polls] using h)]
  | sti sr off =>
    simp [readState, State.indirect,
      memRead_ordinary s (show s.pcRel off ≠ s.cfg.kbdStatusAddr by simpa [polls] using h)]
  | ldi dr off =>
    simp only [polls, Bool.or_eq_false_iff, beq_eq_false_iff_ne] at h
    obtain ⟨pointer, data⟩ := h
    have first : s.indirect off = (s.memPeek (s.pcRel off), s) := memRead_ordinary s pointer
    rw [first] at data
    simp only [readState, first, memRead_ordinary s data]
  | _ => rfl

/-- The reads keep the canonical form of memory. -/
theorem readState_wf {s : State} (h : Memory.wf s.mem = true) : Memory.wf (readState i s).mem = true := by
  cases i with
  | ld | ldr | sti => exact memRead_wf s _ h
  | ldi => exact memRead_wf _ _ (memRead_wf s _ h)
  | _ => exact h

/-- The reads write no cell but the two device registers (R45). -/
theorem readState_memPeek {s : State} {b : Word} (hs : b ≠ s.cfg.kbdStatusAddr) (hd : b ≠ s.cfg.kbdDataAddr) :
    (readState i s).memPeek b = s.memPeek b := by
  cases i with
  | ld | ldr | sti => exact memRead_memPeek s _ b hs hd
  | ldi dr off =>
    have cfg : (s.indirect off).2.cfg = s.cfg := memRead_cfg s (s.pcRel off)
    exact (memRead_memPeek _ _ b (by rwa [cfg]) (by rwa [cfg])).trans (memRead_memPeek s _ b hs hd)
  | _ => rfl

/-- The cause that an instruction raises, if it is fatal (spec/60_exceptions.md R151). -/
def fatalKind : Instr → Option FatalKind
  | .rti _ | .res _ => some .reservedOpcode
  | .trapUndefined _ _ => some .illegalTrapVector
  | _ => none

/-- What an instruction can do: one constructor for each way in which the meanings end. -/
inductive Effect : State → Prop
  /-- GETC or IN without a character (R156). -/
  | held (console : readsConsole i = true) (input : s.conIn = []) : Effect s.hold
  /-- GETC or IN with one (R122, R125). -/
  | served (c : Byte) (rest : List Byte) (out : List ConEvent) (console : readsConsole i = true)
      (input : s.conIn = c :: rest) (dest : destReg i = some serviceReg) (echo : out ≠ [] → writesConsole i = true) :
      Effect { s with conIn := rest, regs := s.regs.set serviceReg (zextByte c), conOut := s.conOut ++ out }
  /-- The instructions that derive COND: reads, then the write of DR (R25). -/
  | result (dr : RegIdx) (v : Word) (dest : destReg i = some dr) : Effect ((readState i s).writeDR dr v)
  /-- A transfer of control without a link; BR not taken goes to the next instruction (R91, R92). -/
  | jump (target : Word) (control : writesPc i = true) : Effect (s.setPc target)
  /-- A transfer with a link (R93, R94). -/
  | call (target : Word) (control : writesPc i = true) (dest : destReg i = some linkReg) :
      Effect (s.link.setPc target)
  /-- A store after the pointer read, if there is one (R110). -/
  | store (a v : Word) (target : storeTarget i s = some a) : Effect ((readState i s).memWrite a v)
  /-- A service that writes and flushes (R123, R124, R126). -/
  | output (bs : List Byte) (writes : writesConsole i = true) : Effect (s.consoleWrite bs).consoleFlush
  /-- The normal stop (R127). -/
  | halted (halts : i = .trapHalt) : Effect (s.consoleWrite s.cfg.haltNotice).consoleFlush.haltRun
  /-- The fatal stop (R153). -/
  | fatal (kind : FatalKind) (raises : fatalKind i = some kind) : Effect (s.raiseFatal kind (encode i))

/-- GETC and IN without a character are held (R156). -/
theorem exec_held {i : Instr} {s : State} (console : readsConsole i = true) (input : s.conIn = []) :
    exec i s = .next s.hold := by
  cases i with
  | trapGetc => exact exec_trapGetc_none s input
  | trapIn => exact exec_trapIn_none s input
  | _ => cases console

/-- GETC and IN with a character consume it and answer its code in R0; IN alone writes (R122, R125). -/
theorem exec_served {i : Instr} {s : State} {c : Byte} {rest : List Byte} (console : readsConsole i = true)
    (input : s.conIn = c :: rest) :
    ∃ out, (out ≠ [] → writesConsole i = true) ∧ exec i s = .next
      { s with conIn := rest, regs := s.regs.set serviceReg (zextByte c), conOut := s.conOut ++ out } := by
  cases i with
  | trapGetc => exact ⟨[], fun h => absurd rfl h, by rw [exec_trapGetc_some s input, List.append_nil]; rfl⟩
  | trapIn =>
    refine ⟨s.cfg.inPrompt.map .write ++ [.write c], fun _ => rfl, ?_⟩
    rw [exec_trapIn_some s input, ← List.append_assoc]
    rfl
  | _ => cases console

/-- A fatal instruction enters the fatal stop with the word it is encoded in (R153). -/
theorem exec_fatal {i : Instr} {kind : FatalKind} (raises : fatalKind i = some kind) (s : State) :
    exec i s = .next (s.raiseFatal kind (encode i)) := by
  cases i with
  | rti | res | trapUndefined => cases raises; rfl
  | _ => cases raises

/-- GETC and IN are held or served. -/
theorem exec_effect_of_readsConsole {i : Instr} (s : State) (console : readsConsole i = true)
    (dest : destReg i = some serviceReg) : ∃ t, exec i s = .next t ∧ Effect i s t := by
  cases input : s.conIn with
  | nil => exact ⟨_, exec_held console input, .held console input⟩
  | cons c rest =>
    obtain ⟨out, echo, h⟩ := exec_served console input
    exact ⟨_, h, .served c rest out console input dest echo⟩

/-- Every instruction answers a next state, in one of the ways of `Effect`. -/
theorem exec_effect : ∃ t, exec i s = .next t ∧ Effect i s t := by
  cases i with
  | addReg | addImm | andReg | andImm | not | lea | ld | ldi | ldr => exact ⟨_, rfl, .result _ _ rfl⟩
  | st | sti | str => exact ⟨_, rfl, .store _ _ rfl⟩
  | br mask off =>
    refine ⟨_, exec_br s mask off, ?_⟩
    split
    · exact .jump _ rfl
    · exact .jump s.pc rfl
  | jmp => exact ⟨_, rfl, .jump _ rfl⟩
  | jsr | jsrr => exact ⟨_, rfl, .call _ rfl rfl⟩
  | trapGetc | trapIn => exact exec_effect_of_readsConsole s rfl rfl
  | trapOut | trapPuts | trapPutsp => exact ⟨_, rfl, .output _ rfl⟩
  | trapHalt => exact ⟨_, rfl, .halted rfl⟩
  | rti | res | trapUndefined => exact ⟨_, rfl, .fatal _ rfl⟩

variable {i s} {t : State}

/-- What an instruction answered is one of the ways of `Effect`. -/
theorem effect_of_exec (h : exec i s = .next t) : Effect i s t := by
  obtain ⟨u, hu, e⟩ := exec_effect i s
  rw [hu] at h
  cases h
  exact e

end Sys2Proof.Machine
end

section
/-! The rules of the whole machine: what an instruction leaves unchanged. -/

namespace Sys2Proof.Machine

/-- Settles O51: in each way of `Effect` the one register written is the destination. -/
theorem registersChangeOnlyAtTheDestination : Obligations.RegistersChangeOnlyAtTheDestination := by
  intro i s t h r hr
  have other : ∀ {d}, destReg i = some d → d ≠ r := fun dest e => hr (e ▸ dest)
  cases effect_of_exec h with
  | served c rest out _ _ dest => exact setReg_reg_other s serviceReg r (zextByte c) (other dest)
  | result dr v dest => rw [writeDR_reg_other _ _ _ _ (other dest), readState_reg]
  | call target _ dest => exact setReg_reg_other s linkReg r s.pc (other dest)
  | store => simp
  | held | jump | output | halted | fatal => rfl

/-- Settles O52: only the two transfers and a held service write PC, and both are excluded. -/
theorem pcChangesOnlyByControlTransfer : Obligations.PcChangesOnlyByControlTransfer := by
  intro i s t h noControl hasInput
  cases effect_of_exec h with
  | held console input => exact absurd input (hasInput console)
  | jump _ control | call _ control => rw [noControl] at control; cases control
  | result | store => simp
  | served | output | halted | fatal => rfl

/-- Settles O53: memory is written by the store, at its target, and by the reads, which write the device registers and
only when they poll. -/
theorem memoryChangesOnlyByStoreAndPoll : Obligations.MemoryChangesOnlyByStoreAndPoll := by
  intro i s t h a notTarget notDevice
  have reads : (readState i s).memPeek a = s.memPeek a := by
    cases p : polls i s with
    | false => rw [readState_of_not_polls p]
    | true => exact readState_memPeek i (notDevice p).1 (notDevice p).2
  cases effect_of_exec h with
  | result => exact reads
  | store b v target =>
    have hb : a ≠ b := fun e => notTarget (e ▸ target)
    rw [memPeek_memWrite, if_neg hb, reads]
  | held | served | jump | call | output | halted | fatal => rfl

/-- An instruction appends to the output log, and only a service that writes appends anything (R163). -/
theorem exec_conOut {i : Instr} {s t : State} (h : exec i s = .next t) :
    ∃ out, t.conOut = s.conOut ++ out ∧ (out ≠ [] → writesConsole i = true) := by
  cases effect_of_exec h with
  | served c rest out _ _ _ echo => exact ⟨out, rfl, echo⟩
  | output bs writes => exact ⟨bs.map .write ++ [.flush], by simp, fun _ => writes⟩
  | halted halts => exact ⟨s.cfg.haltNotice.map .write ++ [.flush], by simp, fun _ => halts ▸ rfl⟩
  | held | result | jump | call | store | fatal => exact ⟨[], by simp, fun h => absurd rfl h⟩

/-- Settles O54: a stopped or cancelled machine writes nothing; otherwise the fetch writes nothing and the instruction
appends as `exec_conOut` says. -/
theorem outputComesOnlyFromServices : Obligations.OutputComesOnlyFromServices := by
  intro s t h
  rcases step_cases h with ⟨_, rfl⟩ | ⟨_, _, _, rfl⟩ | ⟨run, _, h⟩
  · exact ⟨[], by simp, fun h => absurd rfl h⟩
  · exact ⟨[], by simp, fun h => absurd rfl h⟩
  · obtain ⟨out, log, writes⟩ := exec_conOut h
    rw [fetch_conOut, admitEnv_conOut] at log
    rw [fetch_word, admitEnv_pc] at writes
    exact ⟨out, log, fun ne => ⟨run, writes ne⟩⟩

/-- No instruction writes the parameters, the request or the environment's moves (R33). -/
theorem exec_frame {i : Instr} {s t : State} (h : exec i s = .next t) :
    t.cfg = s.cfg ∧ t.cancel = s.cancel ∧ t.env = s.env := by
  cases effect_of_exec h with
  | result | store => simp
  | held | served | jump | call | output | halted | fatal => exact ⟨rfl, rfl, rfl⟩

/-- Only the reads take an arrival (log 31). -/
theorem exec_pollEnv {i : Instr} {s t : State} (h : exec i s = .next t) :
    t.pollEnv = (readState i s).pollEnv ∨ t.pollEnv = s.pollEnv := by
  cases effect_of_exec h with
  | result | store => exact .inl rfl
  | held | served | jump | call | output | halted | fatal => exact .inr rfl

/-- No step changes the parameters (R33). -/
theorem step_cfg {s t : State} (h : step s = .next t) : t.cfg = s.cfg := by
  rcases step_cases h with ⟨_, rfl⟩ | ⟨_, _, _, rfl⟩ | ⟨_, _, h⟩
  · rfl
  · simp
  · simpa using (exec_frame h).1

/-- Settles O56: the frame of an instruction, the reads' arrivals where nothing polls, and the frame of a step. -/
theorem parametersNeverChange : Obligations.ParametersNeverChange := by
  refine ⟨fun i s t h => ?_, fun s t => step_cfg⟩
  obtain ⟨cfg, cancel, env⟩ := exec_frame h
  refine ⟨cfg, cancel, env, fun quiet => ?_⟩
  rcases exec_pollEnv h with e | e
  · rw [e, readState_of_not_polls quiet]
  · exact e

/-- Settles O50: a step answers in each of its three branches, since every instruction does. -/
theorem everyStepAnswers : Obligations.EveryStepAnswers := by
  intro s
  rw [step_eq]
  split
  · split
    · exact ⟨_, rfl⟩
    · obtain ⟨t, h, _⟩ := exec_effect (decode s.admitEnv.fetch.1) s.admitEnv.fetch.2
      exact ⟨t, h⟩
  · exact ⟨_, rfl⟩

end Sys2Proof.Machine
end

section
/-! The step, branch by branch (spec/60_exceptions.md R150, R155, R156). -/

namespace Sys2Proof.Machine

variable {s t : State}

/-- A stopped machine's step changes nothing (log 21). -/
theorem step_stopped (stopped : s.run ≠ .running) : step s = .next s := by rw [step_eq, if_neg stopped]

/-- A request seen before the fetch stops the machine (R155). -/
theorem step_cancelled (run : s.run = .running) (begins : s.waiting = false) (request : s.admitEnv.cancel = true) :
    step s = .next s.admitEnv.cancelRun := by
  rw [step_eq, if_pos run, if_pos ⟨request, begins⟩]

/-- Otherwise the instruction fetched executes (R150). -/
theorem step_executes (run : s.run = .running) (goes : s.admitEnv.cancel = false ∨ s.waiting = true) :
    step s = exec (decode s.admitEnv.fetch.1) s.admitEnv.fetch.2 := by
  rw [step_eq, if_pos run, if_neg]
  rintro ⟨request, begins⟩
  rcases goes with h | h
  · rw [h] at request; cases request
  · rw [h] at begins; cases begins

/-- Away from `KBD_STATUS_ADDR` the fetch reads the stored cell, as it stood before the environment's move. -/
theorem fetch_admitEnv (ordinary : s.pc ≠ s.cfg.kbdStatusAddr) :
    s.admitEnv.fetch = (s.memPeek s.pc, { s.admitEnv with pc := s.pc + 1#16, waiting := false }) := by
  have h := fetch_ordinary s.admitEnv (by simpa using ordinary)
  simpa using h

theorem step_executes_ordinary (run : s.run = .running) (goes : s.admitEnv.cancel = false ∨ s.waiting = true)
    (ordinary : s.pc ≠ s.cfg.kbdStatusAddr) :
    step s = exec (decode (s.memPeek s.pc)) { s.admitEnv with pc := s.pc + 1#16, waiting := false } := by
  rw [step_executes run goes, fetch_admitEnv ordinary]

/-- A GETC or an IN that finds no character leaves the machine before the fetch, marked (R156, log 14). -/
theorem step_held (run : s.run = .running) (goes : s.admitEnv.cancel = false ∨ s.waiting = true)
    (ordinary : s.pc ≠ s.cfg.kbdStatusAddr) (console : readsConsole (decode (s.memPeek s.pc)) = true)
    (input : s.admitEnv.conIn = []) : step s = .next { s.admitEnv with waiting := true } := by
  have h := exec_held (s := { s.admitEnv with pc := s.pc + 1#16, waiting := false }) console input
  rw [step_executes_ordinary run goes ordinary, h, State.hold]
  simp

/-- A GETC or an IN that finds a character completes (R122, R125). -/
theorem step_served {c : Byte} {rest : List Byte} (run : s.run = .running)
    (goes : s.admitEnv.cancel = false ∨ s.waiting = true) (ordinary : s.pc ≠ s.cfg.kbdStatusAddr)
    (console : readsConsole (decode (s.memPeek s.pc)) = true) (input : s.admitEnv.conIn = c :: rest) :
    ∃ t, step s = .next t ∧ t.run = .running ∧ t.waiting = false ∧ t.pc = s.pc + 1#16 ∧
      t.cancel = s.admitEnv.cancel ∧ t.conIn = rest ∧ t.reg 0 = c.setWidth 16 := by
  obtain ⟨out, _, h⟩ := exec_served (s := { s.admitEnv with pc := s.pc + 1#16, waiting := false }) console input
  rw [step_executes_ordinary run goes ordinary, h]
  exact ⟨_, rfl, (admitEnv_run s).trans run, rfl, rfl, rfl, rfl, setReg_reg_same _ serviceReg (zextByte c)⟩

/-- Only a GETC or an IN that is held marks the machine as waiting (R156). -/
theorem exec_waiting {i : Instr} (h : exec i s = .next t) (begins : s.waiting = false) (waits : t.waiting = true) :
    readsConsole i = true ∧ s.conIn = [] := by
  cases effect_of_exec h with
  | held console input => exact ⟨console, input⟩
  | result | store | served | jump | call | output | halted | fatal => simp [begins] at waits

/-- Where a machine waits after a step: at a GETC or an IN, away from `KBD_STATUS_ADDR`, and nothing was pending. -/
theorem step_waiting (run : s.run = .running) (h : step s = .next t) (waits : t.waiting = true) :
    s.pc ≠ s.cfg.kbdStatusAddr ∧ readsConsole (decode (s.memPeek s.pc)) = true ∧ s.admitEnv.conIn = [] ∧
      t = { s.admitEnv with waiting := true } := by
  rcases step_cases h with ⟨stopped, _⟩ | ⟨_, _, begins, rfl⟩ | ⟨_, goes, h'⟩
  · exact absurd run stopped
  · simp [begins] at waits
  · obtain ⟨console, input⟩ := exec_waiting h' (fetch_waiting _) waits
    have ordinary : s.pc ≠ s.cfg.kbdStatusAddr := by
      intro e
      rw [fetch_word, admitEnv_pc, e, ← admitEnv_cfg, readsConsole_memRead_status] at console
      cases console
    rw [fetch_admitEnv ordinary] at console input
    rw [step_held run goes ordinary console input] at h
    cases h
    exact ⟨ordinary, console, input, rfl⟩

/-- Settles O6: the step's third branch, with the fetch written out. -/
theorem stepExecutesTheWordAtPc : Obligations.StepExecutesTheWordAtPc := by
  intro s run goes
  refine ⟨?_, step_executes_ordinary run goes⟩
  rw [step_executes run goes]
  simp [State.fetch]

/-- Settles O7, by induction on the number of steps, each of which changes nothing. -/
theorem stoppedMachineStaysAsItIs : Obligations.StoppedMachineStaysAsItIs := by
  intro k s stopped
  induction k with
  | zero => exact after_zero.mpr rfl
  | succ k ih => exact after_succ.mpr ⟨s, step_stopped stopped, ih⟩

/-- Settles O8: a request before the fetch; a wait that goes on whatever the request; and the wait that ends, after
which the request, kept, is seen before the next fetch. -/
theorem cancelStopsBeforeTheFetch : Obligations.CancelStopsBeforeTheFetch := by
  refine ⟨fun s run begins request => step_cancelled run begins request,
    fun s run waits ordinary console input => step_held run (.inr waits) ordinary console input,
    fun s run waits ordinary console input request => ?_⟩
  obtain ⟨c, rest, input⟩ := List.exists_cons_of_ne_nil input
  obtain ⟨t, h, run', begins, pc, cancel, _, _⟩ := step_served run (.inr waits) ordinary console input
  rw [request] at cancel
  have request' : t.admitEnv.cancel = true := by
    cases e : t.env with
    | nil => rw [admitEnv_nil t e, cancel]
    | cons m moves => rw [admitEnv_cons t e]; simp [cancel]
  exact ⟨t, h, run', begins, pc, cancel, step_cancelled run' begins request'⟩

/-- Settles O9: the step is held without a character and served with one. -/
theorem getcAndInWaitForACharacter : Obligations.GetcAndInWaitForACharacter := by
  intro s run goes ordinary console
  refine ⟨step_held run goes ordinary console, fun c rest input => ?_⟩
  obtain ⟨t, h, run', begins, pc, _, conIn, value⟩ := step_served run goes ordinary console input
  exact ⟨t, h, begins, run', pc, conIn, value⟩

/-- Settles O10: a machine that waits after a step was held, away from `KBD_STATUS_ADDR`, where the word read is the
stored cell. -/
theorem onlyGetcAndInWait : Obligations.OnlyGetcAndInWait := by
  intro s t run h waits
  obtain ⟨ordinary, console, input, _⟩ := step_waiting run h waits
  refine ⟨input, ?_⟩
  rw [memRead_ordinary s.admitEnv (by simpa using ordinary), admitEnv_memPeek]
  exact console

end Sys2Proof.Machine
end

section
/-! The stops of the machine (spec/60_exceptions.md R151 to R153), and the words that cause them. -/

namespace Sys2Proof

/-- A field of `a + b` bits is its upper part and its lower part. -/
theorem field_append (w : Word) (lo a b : Nat) : field w (lo + b) a ++ field w lo b = field w lo (a + b) :=
  BitVec.extractLsb'_append_extractLsb'_eq_extractLsb' rfl

/-- An instruction is encoded as a word when it has the word's opcode and its bits 11:0 (R60). -/
theorem encode_eq {i : Instr} {w : Word} (op : i.opcode = opcodeOf w) (low : operandBits i = field w 0 12) :
    encode i = w := by
  rw [encode, op, opcodeBits_opcodeOf, low, field_append w 0 4 12]
  exact BitVec.extractLsb'_eq_self

theorem encode_decode_rti {w : Word} (h : opcodeOf w = .rti) : encode (decode w) = w :=
  encode_eq (opcode_decode w) (by rw [decode_rti h]; rfl)

theorem encode_decode_res {w : Word} (h : opcodeOf w = .res) : encode (decode w) = w :=
  encode_eq (opcode_decode w) (by rw [decode_res h]; rfl)

theorem encode_decode_trapUndefined {w : Word} (h : opcodeOf w = .trap) (vec : isServiceVector (field w 0 8) = false) :
    encode (decode w) = w :=
  encode_eq (opcode_decode w) (by rw [decode_trapUndefined h vec]; exact field_append w 0 4 8)

namespace Machine

/-- F1 is raised by the two reserved opcodes (R151). -/
theorem fatalKind_reserved_iff (i : Instr) :
    fatalKind i = some .reservedOpcode ↔ i.opcode = .rti ∨ i.opcode = .res := by
  cases i <;> simp [fatalKind, Instr.opcode]

/-- F2 is raised by a TRAP whose vector selects no service (R151). -/
theorem fatalKind_decode_illegal_iff (w : Word) :
    fatalKind (decode w) = some .illegalTrapVector ↔ opcodeOf w = .trap ∧ isServiceVector (field w 0 8) = false := by
  constructor
  · intro h
    have op : opcodeOf w = .trap := by
      rw [← opcode_decode]
      cases e : decode w <;> simp [e, fatalKind] at h
      rfl
    rw [decode_trap op] at h
    rcases decodeTrap_cases w with ⟨_, d⟩ | ⟨_, d⟩ | ⟨_, d⟩ | ⟨_, d⟩ | ⟨_, d⟩ | ⟨_, d⟩ | ⟨vec, _⟩
    case inr.inr.inr.inr.inr.inr => exact ⟨op, vec⟩
    all_goals
      rw [d] at h
      cases h
  · rintro ⟨op, vec⟩
    rw [decode_trapUndefined op vec]
    rfl

/-- The fatal record of a word that is fatal holds that word: these are the forms whose ignored bits are kept (R153). -/
theorem encode_decode_of_fatal {w : Word} {kind : FatalKind} (raises : fatalKind (decode w) = some kind) :
    encode (decode w) = w := by
  cases kind with
  | reservedOpcode =>
    rw [fatalKind_reserved_iff, opcode_decode] at raises
    rcases raises with op | op
    · exact encode_decode_rti op
    · exact encode_decode_res op
  | illegalTrapVector =>
    obtain ⟨op, vec⟩ := (fatalKind_decode_illegal_iff w).mp raises
    exact encode_decode_trapUndefined op vec

/-- A record fits its word exactly when the word raises its cause (R151). -/
theorem fits_iff (kind : FatalKind) (w : Word) :
    FatalCause.fits ⟨kind, w⟩ = true ↔ fatalKind (decode w) = some kind := by
  cases kind with
  | reservedOpcode =>
    rw [fatalKind_reserved_iff, opcode_decode, opcodeOf_eq_iff, opcodeOf_eq_iff]
    simp [FatalCause.fits, opcodeBits]
  | illegalTrapVector =>
    rw [fatalKind_decode_illegal_iff, opcodeOf_eq_iff]
    simp [FatalCause.fits, opcodeBits]

/-- The word of HALT (R127). -/
theorem decode_eq_trapHalt_iff (w : Word) : decode w = .trapHalt ↔ opcodeOf w = .trap ∧ field w 0 8 = 0x25#8 := by
  constructor
  · intro h
    have op : opcodeOf w = .trap := by rw [← opcode_decode, h]; rfl
    rw [decode_trap op] at h
    rcases decodeTrap_cases w with ⟨_, d⟩ | ⟨_, d⟩ | ⟨_, d⟩ | ⟨_, d⟩ | ⟨_, d⟩ | ⟨vec, _⟩ | ⟨_, d⟩
    case inr.inr.inr.inr.inr.inl => exact ⟨op, vec⟩
    all_goals
      rw [d] at h
      cases h
  · rintro ⟨op, vec⟩
    exact decode_trapHalt op vec

/-- How an instruction leaves the run state and the record: fatal, halted, or as they were (R152). -/
theorem exec_stops {i : Instr} {s t : State} (h : exec i s = .next t) :
    (∃ kind, fatalKind i = some kind ∧ t.run = .fatal ∧ t.fatalCause = some ⟨kind, encode i⟩) ∨
    (i = .trapHalt ∧ t.run = .halted ∧ t.fatalCause = s.fatalCause) ∨
    (fatalKind i = none ∧ i ≠ .trapHalt ∧ t.run = s.run ∧ t.fatalCause = s.fatalCause) := by
  cases raises : fatalKind i with
  | some kind =>
    rw [exec_fatal raises] at h
    cases h
    exact .inl ⟨kind, rfl, rfl, rfl⟩
  | none =>
    by_cases halts : i = .trapHalt
    · subst halts
      cases h
      exact .inr (.inl ⟨rfl, rfl, rfl⟩)
    · refine .inr (.inr ⟨rfl, halts, ?_⟩)
      cases effect_of_exec h with
      | halted e => exact absurd e halts
      | fatal kind e => rw [raises] at e; cases e
      | result | store => simp
      | held | served | jump | call | output => exact ⟨rfl, rfl⟩

/-- Settles O48: the instruction stops as `exec_stops` says, and the word's top bits and vector say which case it is. -/
theorem eachOpcodeCompletesOrStopsAsListed : Obligations.EachOpcodeCompletesOrStopsAsListed := by
  intro w s run
  obtain ⟨t, h, _⟩ := exec_effect (decode w) s
  refine ⟨t, h, ?_⟩
  have rti : w.extractLsb' 12 4 = 0b1000#4 ↔ opcodeOf w = .rti := (opcodeOf_eq_iff w .rti).symm
  have res : w.extractLsb' 12 4 = 0b1101#4 ↔ opcodeOf w = .res := (opcodeOf_eq_iff w .res).symm
  have trap : w.extractLsb' 12 4 = 0b1111#4 ↔ opcodeOf w = .trap := (opcodeOf_eq_iff w .trap).symm
  simp only [rti, res, trap]
  have vec : w.extractLsb' 0 8 = field w 0 8 := rfl
  simp only [vec]
  rcases exec_stops h with ⟨kind, raises, fatal, record⟩ | ⟨halts, halted, record⟩ | ⟨none, goes, run', record⟩
  · rw [encode_decode_of_fatal raises] at record
    cases kind with
    | reservedOpcode =>
      rw [fatalKind_reserved_iff, opcode_decode] at raises
      rw [if_pos raises]
      exact ⟨fatal, record⟩
    | illegalTrapVector =>
      obtain ⟨op, other⟩ := (fatalKind_decode_illegal_iff w).mp raises
      rw [if_neg (by simp [op]), if_pos op, if_neg (by rintro e; rw [e] at other; cases other), if_neg]
      · exact ⟨fatal, record⟩
      · rw [isServiceVector_eq_false_iff] at other
        omega
  · obtain ⟨op, v⟩ := (decode_eq_trapHalt_iff w).mp halts
    rw [if_neg (by simp [op]), if_pos op, if_pos v]
    exact ⟨halted, record⟩
  · have notReserved : ¬(opcodeOf w = .rti ∨ opcodeOf w = .res) := by
      rw [← opcode_decode, ← fatalKind_reserved_iff, none]
      simp
    rw [if_neg notReserved]
    rw [run] at run'
    by_cases op : opcodeOf w = .trap
    · have notHalt : field w 0 8 ≠ 0x25#8 := fun v => goes (decode_trapHalt op v)
      have vector : isServiceVector (field w 0 8) = true := by
        by_contra other
        rw [(fatalKind_decode_illegal_iff w).mpr ⟨op, by simpa using other⟩] at none
        cases none
      rw [isServiceVector_iff] at vector
      have notLast : (field w 0 8).toNat ≠ 0x25 := fun e => notHalt (BitVec.eq_of_toNat_eq e)
      rw [if_pos op, if_neg notHalt, if_pos (by omega)]
      exact ⟨run', record⟩
    · rw [if_neg op]
      exact ⟨run', record⟩

/-- Settles O49: a step that stops the machine is a cancellation or an instruction that `exec_stops` lists, and the
fetch leaves the record as it was. -/
theorem onlyTheListedCausesStopTheMachine : Obligations.OnlyTheListedCausesStopTheMachine := by
  intro s t run h stops w
  rcases step_cases h with ⟨stopped, _⟩ | ⟨_, request, _, rfl⟩ | ⟨_, _, h⟩
  · exact absurd run stopped
  · exact .inr (.inr (.inr ⟨rfl, admitEnv_fatalCause s, admitEnv_pc s, request⟩))
  rw [show s.admitEnv.fetch.1 = w by simp [w]] at h
  rcases exec_stops h with ⟨kind, raises, fatal, record⟩ | ⟨halts, halted, record⟩ | ⟨_, _, run', _⟩
  · rw [encode_decode_of_fatal raises] at record
    cases kind with
    | reservedOpcode =>
      rw [fatalKind_reserved_iff, opcode_decode] at raises
      exact .inl ⟨fatal, record, raises.imp (opcodeOf_eq_iff w .rti).mp (opcodeOf_eq_iff w .res).mp⟩
    | illegalTrapVector =>
      obtain ⟨op, other⟩ := (fatalKind_decode_illegal_iff w).mp raises
      refine .inr (.inl ⟨fatal, record, (opcodeOf_eq_iff w .trap).mp op, fun service => ?_⟩)
      rw [(isServiceVector_iff (field w 0 8)).mpr service] at other
      cases other
  · obtain ⟨op, vec⟩ := (decode_eq_trapHalt_iff w).mp halts
    exact .inr (.inr (.inl ⟨halted, by simpa using record, (opcodeOf_eq_iff w .trap).mp op, vec⟩))
  · exact absurd (by simpa [run] using run') stops

end Machine

end Sys2Proof
end

section
/-! The invariant: every step keeps it (spec/20_memory.md R40, spec/60_exceptions.md R153, R156). -/

namespace Sys2Proof.Machine

/-- An instruction keeps the canonical form of memory: it writes by stores and polls alone. -/
theorem exec_wf {i : Instr} {s t : State} (h : exec i s = .next t) (wf : Memory.wf s.mem = true) :
    Memory.wf t.mem = true := by
  cases effect_of_exec h with
  | result => exact readState_wf i wf
  | store a v => exact memWrite_wf _ a v (readState_wf i wf)
  | held | served | jump | call | output | halted | fatal => exact wf

/-- A step keeps the canonical form of memory. -/
theorem step_wf {s t : State} (h : step s = .next t) (wf : Memory.wf s.mem = true) : Memory.wf t.mem = true := by
  rcases step_cases h with ⟨_, rfl⟩ | ⟨_, _, _, rfl⟩ | ⟨_, _, h⟩
  · exact wf
  · simpa using wf
  · refine exec_wf h ?_
    rw [fetch_mem]
    exact memRead_wf _ _ (by simpa using wf)

/-- The part of the invariant that speaks of the fatal record (R153, R151). -/
def RecordOk (s : State) : Prop :=
  (s.fatalCause.isSome = true ↔ s.run = .fatal) ∧ ∀ c, s.fatalCause = some c → c.fits = true

/-- Without a record the machine must not be in the fatal stop. -/
theorem recordOk_of_none {s : State} (record : s.fatalCause = none) (run : s.run ≠ .fatal) : RecordOk s :=
  ⟨by simp [record, run], by simp [record]⟩

/-- A word that is executed by a machine without a record leaves none, or the record that fits it. -/
theorem exec_recordOk {w : Word} {s t : State} (h : exec (decode w) s = .next t) (run : s.run = .running)
    (record : s.fatalCause = none) : RecordOk t := by
  rcases exec_stops h with ⟨kind, raises, fatal, cause⟩ | ⟨_, halted, cause⟩ | ⟨_, _, run', cause⟩
  · rw [encode_decode_of_fatal raises] at cause
    refine ⟨by simp [cause, fatal], fun c hc => ?_⟩
    rw [cause] at hc
    cases hc
    exact (fits_iff kind w).mpr raises
  · exact recordOk_of_none (cause.trans record) (by simp [halted])
  · exact recordOk_of_none (cause.trans record) (by simp [run', run])

/-- A step keeps the record's part of the invariant: a running machine has no record. -/
theorem step_recordOk {s t : State} (h : step s = .next t) (ok : RecordOk s) : RecordOk t := by
  have noRecord : s.run = .running → s.fatalCause = none := by
    intro run
    have := ok.1
    simpa [run] using this
  rcases step_cases h with ⟨_, rfl⟩ | ⟨run, _, _, rfl⟩ | ⟨run, _, h⟩
  · exact ok
  · exact recordOk_of_none (by simp [noRecord run]) (by simp)
  · exact exec_recordOk h (by simp [run]) (by simp [noRecord run])

/-- The two instructions that can be held. -/
theorem readsConsole_iff (i : Instr) : readsConsole i = true ↔ i = .trapGetc ∨ i = .trapIn := by
  cases i <;> simp [readsConsole]

/-- Settles O57: memory and the parameters by their frame laws, the record by `step_recordOk`; a machine that waits
after a step stands where `step_waiting` says, or had stopped and stays as it was. -/
theorem everyStepKeepsTheInvariant : Obligations.EveryStepKeepsTheInvariant := by
  intro s t inv h
  obtain ⟨fatalIff, fatalFits⟩ := step_recordOk h ⟨inv.fatalIff, inv.fatalFits⟩
  refine ⟨step_wf h inv.memWf, by rw [step_cfg h]; exact inv.cfgWf, fatalIff, fatalFits, fun waits => ?_⟩
  by_cases run : s.run = .running
  · obtain ⟨ordinary, console, _, rfl⟩ := step_waiting run h waits
    rw [readsConsole_iff, ← admitEnv_memPeek, ← admitEnv_pc] at console
    refine ⟨by simp [run], by simpa using ordinary, console⟩
  · rw [step_stopped run] at h
    cases h
    exact inv.waitingAt waits

end Sys2Proof.Machine
end

section
/-! The loader (spec/70_reset_and_hazards.md R172) and the state before the first fetch (spec/10_state.md R32). -/

namespace Sys2Proof.Machine

theorem bigEndianWord_eq (hi lo : Byte) : bigEndianWord hi lo = BitVec.ofNat 16 (hi.toNat * 256 + lo.toNat) := by
  rw [← bigEndianWord_toNat, BitVec.ofNat_toNat, BitVec.setWidth_eq]

/-- Pairs of bytes become words, one a pair (R47). -/
theorem wordsOfBytes_pairs (ps : List (Byte × Byte)) :
    wordsOfBytes (ps.flatMap fun p => [p.1, p.2]) = some (ps.map fun p => bigEndianWord p.1 p.2) := by
  induction ps with
  | nil => rfl
  | cons p ps ih => simp [wordsOfBytes, ih]

/-- A cell after the deposit of words from `a` on: the word for it, if there is one below the end of memory. -/
theorem read_depositWords (ws : List Word) (m : Memory) (a b : Nat) :
    Memory.read (depositWords m a ws) b =
      if a ≤ b ∧ b < 65536 then (ws[b - a]?).getD (Memory.read m b) else Memory.read m b := by
  induction ws generalizing m a with
  | nil => simp [depositWords]
  | cons w ws ih =>
    by_cases ha : a < 65536
    · rw [depositWords_cons m a w ws ha, ih, Memory.read_write]
      rcases Nat.lt_trichotomy b a with hb | rfl | hb
      · simp [Nat.not_le.mpr hb, show ¬a + 1 ≤ b by omega, Nat.ne_of_lt hb]
      · simp [ha]
      · simp only [Nat.ne_of_gt hb, if_false, show (a + 1 ≤ b) = (a ≤ b) by simp; omega]
        rw [show b - a = b - (a + 1) + 1 by omega, List.getElem?_cons_succ]
    · rw [depositWords_past m a _ ha, if_neg (by omega)]

theorem depositWords_wf (ws : List Word) {m : Memory} (a : Nat) (wf : Memory.wf m = true) :
    Memory.wf (depositWords m a ws) = true := by
  induction ws generalizing m a with
  | nil => exact wf
  | cons w ws ih =>
    by_cases ha : a < 65536
    · rw [depositWords_cons m a w ws ha]
      exact ih (a + 1) (Memory.wf_write wf ha)
    · rw [depositWords_past m a _ ha]
      exact wf

theorem loadImages_wf (images : List Image) {m : Memory} (wf : Memory.wf m = true) :
    Memory.wf (images.foldl loadImage m) = true := by
  induction images generalizing m with
  | nil => exact wf
  | cons img images ih => exact ih (depositWords_wf img.2 img.1.toNat wf)

/-- A cell that no image covers is as it was before the images were loaded. -/
theorem read_loadImages_uncovered (images : List Image) (m : Memory) (a : Nat)
    (uncovered : ∀ img ∈ images, ¬(img.1.toNat ≤ a ∧ a < img.1.toNat + img.2.length)) :
    Memory.read (images.foldl loadImage m) a = Memory.read m a := by
  induction images generalizing m with
  | nil => rfl
  | cons img images ih =>
    obtain ⟨here, rest⟩ := List.forall_mem_cons.mp uncovered
    rw [List.foldl_cons, ih _ rest, loadImage, read_depositWords]
    split
    · next inside => rw [List.getElem?_eq_none (by omega), Option.getD_none]
    · rfl

/-- Settles O15: the conversion by `wordsOfBytes_pairs`, the deposit by `read_depositWords`; images are loaded from the
left, the last one into the memory that the others left. -/
theorem loaderDepositsTheImage : Obligations.LoaderDepositsTheImage := by
  refine ⟨fun oh ol ps => ?_, fun m img a => read_depositWords img.2 m img.1.toNat a,
    fun c images img conIn env pollEnv => ?_⟩
  · have words : wordsOfBytes (oh :: ol :: ps.flatMap fun p => [p.1, p.2]) = some _ :=
      wordsOfBytes_pairs ((oh, ol) :: ps)
    simp [imageOfBytes, words, bigEndianWord_eq]
  · simp [boot]

/-- Settles O14: the fields stand in `boot`; no image reaches an uncovered cell, and a single image's word lands where
`read_depositWords` says. -/
theorem startStateHoldsTheStatedValues : Obligations.StartStateHoldsTheStatedValues := by
  refine ⟨fun c images conIn env pollEnv => ⟨fun r => ?_, rfl, rfl, rfl, rfl, rfl, rfl, fun a uncovered => ?_⟩,
    fun c img conIn env pollEnv k hk inMemory => ?_, rfl, rfl⟩
  · show State.reset.reg r = _
    revert r
    decide
  · exact read_loadImages_uncovered images State.reset.mem a.toNat uncovered
  · have addr : (img.1 + BitVec.ofNat 16 k).toNat = img.1.toNat + k := by
      rw [BitVec.toNat_add, BitVec.toNat_ofNat]
      omega
    show Memory.read (loadImage State.reset.mem img) (img.1 + BitVec.ofNat 16 k).toNat = _
    rw [addr, loadImage, read_depositWords, if_pos (by omega), Nat.add_sub_cancel_left, List.getElem?_eq_getElem hk]
    rfl

/-- Settles O59: loading keeps memory canonical, and the machine starts running, with no record and not held. -/
theorem everyStartSatisfiesTheInvariant : Obligations.EveryStartSatisfiesTheInvariant := by
  intro c images conIn env pollEnv cfgWf
  obtain ⟨fatalIff, fatalFits⟩ : RecordOk (boot c images conIn env pollEnv) :=
    recordOk_of_none rfl (show RunState.running ≠ .fatal by decide)
  exact ⟨loadImages_wf images rfl, cfgWf, fatalIff, fatalFits, fun waits => absurd waits Bool.false_ne_true⟩

/-- Settles O58: the reset state is the start with the default parameters and nothing else. -/
theorem resetSatisfiesTheInvariant : Obligations.ResetSatisfiesTheInvariant :=
  everyStartSatisfiesTheInvariant defaultConfig [] [] [] [] (by decide)

end Sys2Proof.Machine
end

section
/-! What each instruction does (spec/40_alu.md to spec/45_reserved.md): its word, by the decoder's row, and its next
state, by the meaning's equation. -/

namespace Sys2Proof.Machine

/-! ### ALU -/

/-- Settles O22: the row of ADD with the form bit clear, and the write of DR with COND from the value. -/
theorem addRegisterForm : Obligations.AddRegisterForm :=
  ⟨fun w h => decode_addReg ((opcodeOf_eq_iff w .add).mpr h),
    fun dr sr1 sr2 s => by rw [exec_addReg, writeDR_eq]; rfl⟩

/-- Settles O23: the row of ADD with the form bit set, and the write of DR with COND from the value. -/
theorem addImmediateForm : Obligations.AddImmediateForm :=
  ⟨fun w h => decode_addImm ((opcodeOf_eq_iff w .add).mpr h),
    fun dr sr1 imm s => by rw [exec_addImm, writeDR_eq]; rfl⟩

/-- Settles O24: the row of AND with the form bit clear, and the write of DR with COND from the value. -/
theorem andRegisterForm : Obligations.AndRegisterForm :=
  ⟨fun w h => decode_andReg ((opcodeOf_eq_iff w .and).mpr h),
    fun dr sr1 sr2 s => by rw [exec_andReg, writeDR_eq]; rfl⟩

/-- Settles O25: the row of AND with the form bit set, and the write of DR with COND from the value. -/
theorem andImmediateForm : Obligations.AndImmediateForm :=
  ⟨fun w h => decode_andImm ((opcodeOf_eq_iff w .and).mpr h),
    fun dr sr1 imm s => by rw [exec_andImm, writeDR_eq]; rfl⟩

/-- Settles O26: the complement is the difference from the word of all ones. -/
theorem notComplements : Obligations.NotComplements := by
  refine ⟨fun w h => decode_not ((opcodeOf_eq_iff w .not).mpr h), fun dr sr s => ?_⟩
  have complement : ~~~s.reg sr = 0xFFFF#16 - s.reg sr := (BitVec.allOnes_sub_eq_not (s.reg sr)).symm
  rw [exec_not, writeDR_eq, complement]
  rfl

/-! ### Control transfer -/

/-- The mask bit of each flag: `n` is bit 2, `z` is bit 1, `p` is bit 0 (spec/30_encoding.md R66, log 4). -/
theorem branchTaken_neg (mask : BitVec 3) : branchTaken mask .neg = mask[2] := by revert mask; decide
theorem branchTaken_zero (mask : BitVec 3) : branchTaken mask .zero = mask[1] := by revert mask; decide
theorem branchTaken_pos (mask : BitVec 3) : branchTaken mask .pos = mask[0] := by revert mask; decide

/-- BR goes to its target or to the next instruction (R91). -/
theorem exec_br_ite (mask : BitVec 3) (off : BitVec 9) (s : State) : exec (.br mask off) s =
    if branchTaken mask s.cond = true then .next { s with pc := s.pc + off.signExtend 16 } else .next s := by
  rw [exec_br]
  split <;> rfl

/-- A branch whose mask is empty is never taken (R70). -/
theorem exec_br_never (off : BitVec 9) (s : State) : exec (.br 0#3 off) s = .next s := by
  have never : branchTaken 0#3 s.cond = false := by simp [branchTaken]
  simp [exec_br, never]

/-- Settles O27: the row of BR, and for each flag that can hold the mask bit that is tested. -/
theorem branchTestsTheCondition : Obligations.BranchTestsTheCondition := by
  refine ⟨fun w h => decode_br ((opcodeOf_eq_iff w .br).mpr h), fun mask off s => ?_⟩
  refine (exec_br_ite mask off s).trans (if_congr (Iff.of_eq (congrArg (· = true) ?_)) rfl rfl)
  cases s.cond with
  | neg => exact branchTaken_neg mask
  | zero => exact branchTaken_zero mask
  | pos => exact branchTaken_pos mask

/-- Settles O28: the row and the meaning of JMP. -/
theorem jumpGoesToTheBaseRegister : Obligations.JumpGoesToTheBaseRegister :=
  ⟨fun w h => decode_jmp ((opcodeOf_eq_iff w .jmp).mpr h), fun base s => exec_jmp s base⟩

/-- Settles O29: the row and the meaning of JSR. -/
theorem jsrLinksAndBranches : Obligations.JsrLinksAndBranches :=
  ⟨fun w h => decode_jsr ((opcodeOf_eq_iff w .jsr).mpr h), fun off s => exec_jsr s off⟩

/-- Settles O30: the base register is read after the link is written, which is a read after a write of R7. -/
theorem jsrrLinksBeforeReadingTheBase : Obligations.JsrrLinksBeforeReadingTheBase := by
  refine ⟨fun w h => decode_jsrr ((opcodeOf_eq_iff w .jsr).mpr h), fun base s => ?_⟩
  have target : s.link.reg base = if base = 7 then s.pc else s.reg base := by
    rw [State.link, setReg_reg]
    exact if_congr (eq_comm (a := (7 : RegIdx))) rfl rfl
  rw [exec_jsrr, target]
  rfl

/-! ### Loads -/

/-- Settles O31: the row and the meaning of LD; the read leaves the registers as they were. -/
theorem ldLoadsPcRelative : Obligations.LdLoadsPcRelative :=
  ⟨fun w h => decode_ld ((opcodeOf_eq_iff w .ld).mpr h),
    fun dr off s => by rw [exec_ld, loadInto_eq, writeDR_eq, memRead_regs]; rfl⟩

/-- Settles O32: the row and the meaning of LDI; neither read changes the registers. -/
theorem ldiLoadsThroughThePointer : Obligations.LdiLoadsThroughThePointer :=
  ⟨fun w h => decode_ldi ((opcodeOf_eq_iff w .ldi).mpr h),
    fun dr off s => by rw [exec_ldi, loadInto_eq, writeDR_eq, memRead_regs, State.indirect, memRead_regs]; rfl⟩

/-- Settles O34: the row and the meaning of LDR; the base is read before DR is written. -/
theorem ldrLoadsBaseOffset : Obligations.LdrLoadsBaseOffset :=
  ⟨fun w h => decode_ldr ((opcodeOf_eq_iff w .ldr).mpr h),
    fun dr base off s => by rw [exec_ldr, loadInto_eq, writeDR_eq, memRead_regs]; rfl⟩

/-- Settles O35: the row of LEA, and the write of DR with COND from the address. -/
theorem leaLoadsTheAddress : Obligations.LeaLoadsTheAddress :=
  ⟨fun w h => decode_lea ((opcodeOf_eq_iff w .lea).mpr h), fun dr off s => by rw [exec_lea, writeDR_eq]; rfl⟩

/-! ### Stores -/

/-- Settles O36: the row of ST, and a peek after its one store. -/
theorem stStoresPcRelative : Obligations.StStoresPcRelative :=
  ⟨fun w h => decode_st ((opcodeOf_eq_iff w .st).mpr h),
    fun sr off s => ⟨_, exec_st s sr off, rfl, fun a => memPeek_memWrite s _ a _⟩⟩

/-- Settles O37: the row of STI, and a peek after its one store, in the state that the pointer read left. -/
theorem stiStoresThroughThePointer : Obligations.StiStoresThroughThePointer := by
  refine ⟨fun w h => decode_sti ((opcodeOf_eq_iff w .sti).mpr h),
    fun sr off s => ⟨_, exec_sti s sr off, rfl, fun a => ?_⟩⟩
  rw [memPeek_memWrite, State.indirect, memRead_reg]
  rfl

/-- Settles O38: the row of STR, and a peek after its one store. -/
theorem strStoresBaseOffset : Obligations.StrStoresBaseOffset :=
  ⟨fun w h => decode_str ((opcodeOf_eq_iff w .str).mpr h),
    fun sr base off s => ⟨_, exec_str s sr base off, rfl, fun a => memPeek_memWrite s _ a _⟩⟩

/-! ### TRAP -/

/-- Settles O39: GETC by its vector, served with a character and held without. -/
theorem getcReadsOneCharacter : Obligations.GetcReadsOneCharacter :=
  ⟨fun w h => decode_trapGetc ((opcodeOf_eq_iff w .trap).mpr h), fun s _ _ input => exec_trapGetc_some s input,
    fun s input => exec_trapGetc_none s input⟩

/-- Settles O40: OUT by its vector; the write and the flush are appended one after the other. -/
theorem outWritesTheLowByte : Obligations.OutWritesTheLowByte := by
  refine ⟨fun w h => decode_trapOut ((opcodeOf_eq_iff w .trap).mpr h), fun s => ?_⟩
  rw [exec_trapOut, State.consoleFlush, consoleWrite_conOut, List.append_assoc]
  rfl

/-- Settles O42: IN by its vector, served with a character, after the prompt, and held without. -/
theorem inPromptsReadsAndEchoes : Obligations.InPromptsReadsAndEchoes :=
  ⟨fun w h => decode_trapIn ((opcodeOf_eq_iff w .trap).mpr h), fun s _ _ input => exec_trapIn_some s input,
    fun s input => exec_trapIn_none s input⟩

/-- Settles O44: the row and the meaning of HALT. -/
theorem haltWritesTheNoticeAndStops : Obligations.HaltWritesTheNoticeAndStops :=
  ⟨fun w h => decode_trapHalt ((opcodeOf_eq_iff w .trap).mpr h), fun s => exec_trapHalt s⟩

/-! ### The fatal words -/

/-- A word that is fatal enters the fatal stop with itself on record (R153). -/
theorem exec_decode_fatal {w : Word} {kind : FatalKind} (raises : fatalKind (decode w) = some kind) (s : State) :
    exec (decode w) s = .next (s.raiseFatal kind w) := by
  rw [exec_fatal raises, encode_decode_of_fatal raises]

/-- Settles O45: a vector outside the six raises F2; the word of the constructor is its three parts. -/
theorem undefinedVectorIsFatal : Obligations.UndefinedVectorIsFatal := by
  refine ⟨fun w s h other => ?_, fun ignored vec s => ?_⟩
  · have noService : isServiceVector (field w 0 8) = false := by
      rw [← Bool.not_eq_true, isServiceVector_iff]
      exact other
    exact exec_decode_fatal ((fatalKind_decode_illegal_iff w).mpr ⟨(opcodeOf_eq_iff w .trap).mpr h, noService⟩) s
  · have word : encode (.trapUndefined ignored vec) = (0b1111#4 ++ ignored ++ vec : BitVec (4 + 4 + 8)) :=
      (BitVec.append_assoc (x₁ := 0b1111#4) (x₂ := ignored) (x₃ := vec)).symm
    rw [exec_trapUndefined, word]
    rfl

/-- Settles O46: RTI raises F1. -/
theorem rtiIsFatal : Obligations.RtiIsFatal := by
  refine ⟨fun w s h => exec_decode_fatal ?_ s, fun low s => exec_rti s low⟩
  rw [fatalKind_reserved_iff, opcode_decode]
  exact .inl ((opcodeOf_eq_iff w .rti).mpr h)

/-- Settles O47: RES raises F1. -/
theorem resIsFatal : Obligations.ResIsFatal := by
  refine ⟨fun w s h => exec_decode_fatal ?_ s, fun low s => exec_res s low⟩
  rw [fatalKind_reserved_iff, opcode_decode]
  exact .inr ((opcodeOf_eq_iff w .res).mpr h)

end Sys2Proof.Machine
end

section
/-! The string services (spec/44_trap.md R121, R124, R126). -/

namespace Sys2Proof.Machine

/-- The walk gives the first `k` cells from `a`, where cell `k` is the first zero cell or the walk ends there. -/
theorem stringCells_eq_range (m : Memory) (fuel a : Nat) : ∃ k ≤ fuel,
    stringCells m fuel a = (List.range k).map (fun j => Memory.read m (a + j)) ∧
    (∀ j < k, Memory.read m (a + j) ≠ 0#16) ∧ (k = fuel ∨ Memory.read m (a + k) = 0#16) := by
  induction fuel generalizing a with
  | zero => exact ⟨0, le_rfl, rfl, by simp, .inl rfl⟩
  | succ fuel ih =>
    by_cases zero : Memory.read m a = 0#16
    · exact ⟨0, by simp, stringCells_zero zero, by simp, .inr zero⟩
    · obtain ⟨k, hk, cells, nonzero, stop⟩ := ih (a + 1)
      have shift : ∀ j, a + 1 + j = a + (j + 1) := by omega
      simp only [shift] at cells nonzero stop
      refine ⟨k + 1, by omega, ?_, fun j hj => ?_, stop.imp_left (congrArg (· + 1))⟩
      · rw [stringCells_nonzero zero, cells, List.range_succ_eq_map]
        simp [Function.comp_def]
      · cases j with
        | zero => exact zero
        | succ j => exact nonzero j (by omega)

/-- The string at R0: its cells are those from R0's address to the first zero cell or the end of memory. -/
theorem serviceString_eq_range (s : State) : ∃ k, (s.reg 0).toNat + k ≤ 65536 ∧
    (∀ j, j < k → s.memPeek (s.reg 0 + BitVec.ofNat 16 j) ≠ 0x0000#16) ∧
    ((s.reg 0).toNat + k = 65536 ∨ s.memPeek (s.reg 0 + BitVec.ofNat 16 k) = 0x0000#16) ∧
    s.serviceString = (List.range k).map fun j => s.memPeek (s.reg 0 + BitVec.ofNat 16 j) := by
  have inMemory := (s.reg 0).isLt
  have cell : ∀ j, (s.reg 0).toNat + j < 65536 →
      Memory.read s.mem ((s.reg 0).toNat + j) = s.memPeek (s.reg 0 + BitVec.ofNat 16 j) := by
    intro j hj
    rw [memPeek_eq, BitVec.toNat_add, BitVec.toNat_ofNat]
    congr 1
    omega
  obtain ⟨k, hk, cells, nonzero, stop⟩ := stringCells_eq_range s.mem (65536 - (s.reg 0).toNat) (s.reg 0).toNat
  refine ⟨k, by omega, fun j hj => ?_, ?_, ?_⟩
  · rw [← cell j (by omega)]
    exact nonzero j hj
  · by_cases last : (s.reg 0).toNat + k = 65536
    · exact .inl last
    · rw [← cell k (by omega)]
      exact .inr (stop.resolve_left (by omega))
  · refine Eq.trans cells (List.map_congr_left fun j hj => cell j ?_)
    have := List.mem_range.mp hj
    omega

/-- Settles O41: the low bytes of the string, written one by one, then the flush. -/
theorem putsWritesTheString : Obligations.PutsWritesTheString := by
  refine ⟨fun w h => decode_trapPuts ((opcodeOf_eq_iff w .trap).mpr h), fun s => ?_⟩
  obtain ⟨k, hk, nonzero, stop, cells⟩ := serviceString_eq_range s
  refine ⟨k, hk, nonzero, stop, ?_⟩
  rw [exec_trapPuts, State.consoleFlush, consoleWrite_conOut, cells, List.map_map, List.map_map]
  rfl

/-- The events of a packed cell (R126). -/
theorem map_write_packedBytes (w : Word) : (packedBytes w).map ConEvent.write =
    .write (w.extractLsb' 0 8) :: if w.extractLsb' 8 8 = 0x00#8 then [] else [.write (w.extractLsb' 8 8)] := by
  unfold packedBytes highByte lowByte
  split <;> rfl

/-- Settles O43: the packed bytes of the string's cells, written one by one, then the flush. -/
theorem putspWritesThePackedString : Obligations.PutspWritesThePackedString := by
  refine ⟨fun w h => decode_trapPutsp ((opcodeOf_eq_iff w .trap).mpr h), fun s => ?_⟩
  obtain ⟨k, hk, nonzero, stop, cells⟩ := serviceString_eq_range s
  have log := congrArg (fun cells => (cells.flatMap packedBytes).map ConEvent.write) cells
  simp only [List.map_flatMap, List.flatMap_map, map_write_packedBytes] at log
  refine ⟨k, hk, nonzero, stop, ?_⟩
  rw [exec_trapPutsp, State.consoleFlush, consoleWrite_conOut, List.map_flatMap]
  simp only [map_write_packedBytes, log]
  rfl

end Sys2Proof.Machine
end

section
/-! Stores one after another, the keyboard poll, and steps over particular cells (spec/20_memory.md R45, R46, R52,
R55). -/

namespace Sys2Proof.Machine

variable {s : State} {c : Byte} {rest : List Byte}

/-- Settles O17, by induction on the stores from the last one back. -/
theorem readSeesTheMostRecentStore : Obligations.ReadSeesTheMostRecentStore := by
  intro s ws a
  induction ws using List.reverseRecOn with
  | nil => rfl
  | append_singleton ws w ih =>
    rw [List.foldl_append, List.foldl_cons, List.foldl_nil, memPeek_memWrite, ih, List.reverse_concat, List.find?_cons]
    by_cases h : w.1 = a
    · simp [h]
    · simp [beq_false_of_ne h, Ne.symm h]

/-! ### The keyboard poll -/

theorem kbdDataAddr_ne {cfg : Config} (wf : cfg.wf = true) : cfg.kbdDataAddr ≠ cfg.kbdStatusAddr := by
  intro e
  simp [Config.wf, e] at wf

/-- The cells after a poll that found a character (R45). -/
theorem kbdPoll_memPeek_some (cfgWf : s.cfg.wf = true) (input : s.admitPoll.conIn = c :: rest) (b : Word) :
    s.kbdPoll.memPeek b =
      if b = s.cfg.kbdStatusAddr then kbdReady else if b = s.cfg.kbdDataAddr then zextByte c else s.memPeek b := by
  by_cases status : b = s.cfg.kbdStatusAddr
  · rw [if_pos status, status, kbdPoll_status s cfgWf, input]
    rfl
  · rw [if_neg status]
    by_cases data : b = s.cfg.kbdDataAddr
    · rw [if_pos data, data, kbdPoll_some s input, memPeek_memWrite_same]
    · rw [if_neg data, kbdPoll_memPeek s b status data]

/-- The cells after a poll that found none (R45). -/
theorem kbdPoll_memPeek_none (input : s.admitPoll.conIn = []) (b : Word) :
    s.kbdPoll.memPeek b = if b = s.cfg.kbdStatusAddr then 0#16 else s.memPeek b := by
  rw [kbdPoll_none s input, memPeek_memWrite, admitPoll_memPeek]

theorem kbdPoll_conIn_some (input : s.admitPoll.conIn = c :: rest) : s.kbdPoll.conIn = rest := by
  rw [kbdPoll_some s input]
  rfl

theorem kbdPoll_conIn_none (input : s.admitPoll.conIn = []) : s.kbdPoll.conIn = [] := by
  rw [kbdPoll_none s input]
  exact input

/-- Settles O19: the read of `KBD_STATUS_ADDR` is the poll, with a character and without. -/
theorem keyboardPollDepositsTheCharacter : Obligations.KeyboardPollDepositsTheCharacter := by
  intro s cfgWf
  rw [memRead_status]
  refine ⟨fun c rest input => ⟨?_, kbdPoll_memPeek_some cfgWf input, ?_⟩,
    fun input => ⟨?_, kbdPoll_memPeek_none input, ?_⟩⟩
  · exact (kbdPoll_memPeek_some cfgWf input _).trans (if_pos rfl)
  · rw [kbdPoll_some s input]
    rfl
  · exact (kbdPoll_memPeek_none input _).trans (if_pos rfl)
  · rw [kbdPoll_none s input]
    rfl

/-- LDI through a pointer to `KBD_STATUS_ADDR`, itself an ordinary cell, is a poll and a load of what it answers. -/
theorem exec_ldi_status (dr : RegIdx) {off : BitVec 9} (pointer : s.pcRel off ≠ s.cfg.kbdStatusAddr)
    (target : s.memPeek (s.pcRel off) = s.cfg.kbdStatusAddr) :
    exec (.ldi dr off) s = .next (s.kbdPoll.writeDR dr (s.kbdPoll.memPeek s.cfg.kbdStatusAddr)) := by
  have first : s.indirect off = (s.cfg.kbdStatusAddr, s) := by
    rw [State.indirect, memRead_ordinary s pointer, target]
  rw [exec_ldi, first, loadInto_eq, memRead_status]

/-- Settles O33: the load is `exec_ldi_status`, and the poll answers 0x8000 or 0. -/
theorem ldiThroughAPointerPollsTheKeyboard : Obligations.LdiThroughAPointerPollsTheKeyboard := by
  intro dr off s cfgWf pointer target
  have distinct := kbdDataAddr_ne cfgWf
  refine ⟨_, exec_ldi_status dr pointer target, by simp, by simp, fun r hr => ?_, fun c rest input => ?_,
    fun input => ?_⟩
  · rw [writeDR_reg_other _ _ _ _ (Ne.symm hr), kbdPoll_reg]
  · have value : s.kbdPoll.memPeek s.cfg.kbdStatusAddr = 0x8000#16 :=
      (kbdPoll_memPeek_some cfgWf input _).trans (if_pos rfl)
    rw [value]
    refine ⟨writeDR_reg_same _ _ _, writeDR_cond _ _ _, kbdPoll_conIn_some input, ?_⟩
    rw [writeDR_memPeek, kbdPoll_memPeek_some cfgWf input, if_neg distinct, if_pos rfl]
    rfl
  · have value : s.kbdPoll.memPeek s.cfg.kbdStatusAddr = 0x0000#16 := (kbdPoll_memPeek_none input _).trans (if_pos rfl)
    rw [value]
    refine ⟨writeDR_reg_same _ _ _, writeDR_cond _ _ _, kbdPoll_conIn_none input, ?_⟩
    rw [writeDR_memPeek, kbdPoll_memPeek_none input, if_neg distinct]

/-! ### Steps over particular cells -/

theorem decode_zero : decode 0x0000#16 = .br 0#3 0#9 := by decide

theorem decode_kbdReady : decode kbdReady = .rti 0#12 := by decide

theorem encode_rti_zero : encode (.rti 0#12) = 0x8000#16 := by decide

/-- Settles O12: the zero word is a branch that is never taken, and the mark was clear already. -/
theorem zeroWordOnlyAdvancesThePc : Obligations.ZeroWordOnlyAdvancesThePc := by
  intro s run begins goes ordinary zero
  rw [step_executes_ordinary run (.inl goes) ordinary, zero, decode_zero, exec_br_never]
  simp [begins]

/-- A fetch at `KBD_STATUS_ADDR` answers what the poll left there. -/
theorem fetch_status (h : s.pc = s.cfg.kbdStatusAddr) :
    s.fetch = (s.kbdPoll.memPeek s.cfg.kbdStatusAddr, { s.kbdPoll with pc := s.pc + 1#16, waiting := false }) := by
  rw [State.fetch, h, memRead_status]
  simp [h]

/-- Settles O11: the word that the poll leaves is RTI with a character and a branch that is never taken without one. -/
theorem fetchFromKeyboardStatusPolls : Obligations.FetchFromKeyboardStatusPolls := by
  intro s run goes cfgWf atStatus
  have cfgWf' : s.admitEnv.cfg.wf = true := by simpa using cfgWf
  have fetched := fetch_status (s := s.admitEnv) (by simpa using atStatus)
  rw [step_executes run (.inl goes), fetched]
  refine ⟨fun c rest input => ?_, fun input => ?_⟩
  · have word := (kbdPoll_memPeek_some cfgWf' input s.admitEnv.cfg.kbdStatusAddr).trans (if_pos rfl)
    rw [word, decode_kbdReady, exec_rti, encode_rti_zero]
    refine ⟨_, rfl, rfl, rfl, by simp, kbdPoll_conIn_some input, ?_⟩
    have data := kbdPoll_memPeek_some cfgWf' input s.cfg.kbdDataAddr
    simp only [admitEnv_cfg, if_neg (kbdDataAddr_ne cfgWf), if_true] at data
    exact data
  · have word := (kbdPoll_memPeek_none input s.admitEnv.cfg.kbdStatusAddr).trans (if_pos rfl)
    rw [word, decode_zero, exec_br_never]
    rw [admitEnv_cfg] at word
    exact ⟨_, rfl, by simp [run], by simp, by simp, by simp, word⟩

/-- A step away from `KBD_STATUS_ADDR` while the environment is quiet. -/
theorem step_executes_quiet (run : s.run = .running) (goes : s.cancel = false) (noMove : s.env = [])
    (ordinary : s.pc ≠ s.cfg.kbdStatusAddr) :
    step s = exec (decode (s.memPeek s.pc)) { s with pc := s.pc + 1#16, waiting := false } := by
  have quiet := admitEnv_nil s noMove
  rw [step_executes_ordinary run (.inl (by rw [quiet, goes])) ordinary, quiet]

/-- The address with offset 0 is the incremented PC. -/
theorem pcRel_zero (s : State) : s.pcRel 0#9 = s.pc := by simp [State.pcRel, sext16]

/-- Settles O13: the store goes to the next cell, where the next step fetches the value stored. -/
theorem storeIsSeenByTheNextFetch : Obligations.StoreIsSeenByTheNextFetch := by
  intro s sr run begins goes noMove ordinary ordinary' word
  have first := step_executes_quiet run goes noMove ordinary
  rw [word, decodeOfEncodeIsTheInstruction _ rfl, exec_st, pcRel_zero] at first
  refine ⟨_, first, rfl, rfl, ?_⟩
  refine (step_executes_quiet (by exact run) (by exact goes) (by exact noMove) (by exact ordinary')).trans ?_
  simp only [memWrite_pc, memPeek_memWrite_same, BitVec.add_assoc]
  rfl

end Sys2Proof.Machine
end

section
/-! Input and arrivals: what does not read them does not depend on them (spec/10_state.md R29), and what is read is
taken from the front (spec/00_scope.md R14). -/

namespace Sys2Proof.Machine

/-- A load away from `KBD_STATUS_ADDR` loads the stored cell. -/
theorem loadInto_ordinary {s : State} {ea : Word} (dr : RegIdx) (ordinary : ea ≠ s.cfg.kbdStatusAddr) :
    s.loadInto dr ea = s.writeDR dr (s.memPeek ea) := by
  rw [loadInto_eq, memRead_ordinary s ordinary]

/-- The pointer read away from `KBD_STATUS_ADDR`. -/
theorem indirect_ordinary {s : State} {off : BitVec 9} (ordinary : s.pcRel off ≠ s.cfg.kbdStatusAddr) :
    s.indirect off = (s.memPeek (s.pcRel off), s) := memRead_ordinary s ordinary

/-- The same state with other input pending and to arrive. -/
def State.withInput (s : State) (xs : List Byte) (ys : List (List Byte)) : State :=
  { s with conIn := xs, pollEnv := ys }

/-- Settles O55: the four instructions that read memory find the stored cell in both states, and the others that do not
read the console look at neither list. -/
theorem unreadInputDoesNotMatter : Obligations.UnreadInputDoesNotMatter := by
  intro i s xs ys notConsole quiet
  show ∃ t, exec i s = .next t ∧ exec i (s.withInput xs ys) = .next (t.withInput xs ys)
  cases i with
  | br mask off =>
    refine ⟨_, exec_br s mask off, (exec_br (s.withInput xs ys) mask off).trans (congrArg _ ?_)⟩
    exact (apply_ite (State.withInput · xs ys) (branchTaken mask s.cond = true) (s.setPc (s.pcRel off)) s).symm
  | ld dr off =>
    have ordinary := ne_of_beq_false quiet
    refine ⟨_, (exec_ld s dr off).trans (congrArg _ (loadInto_ordinary dr ordinary)), ?_⟩
    exact congrArg _ (loadInto_ordinary (s := s.withInput xs ys) dr ordinary)
  | ldr dr base off =>
    have ordinary := ne_of_beq_false quiet
    refine ⟨_, (exec_ldr s dr base off).trans (congrArg _ (loadInto_ordinary dr ordinary)), ?_⟩
    exact congrArg _ (loadInto_ordinary (s := s.withInput xs ys) dr ordinary)
  | ldi dr off =>
    obtain ⟨pointer, data⟩ := (Bool.or_eq_false_iff).mp quiet
    have pointer := ne_of_beq_false pointer
    rw [indirect_ordinary pointer] at data
    have data := ne_of_beq_false data
    refine ⟨s.writeDR dr (s.memPeek (s.memPeek (s.pcRel off))), ?_, ?_⟩
    · rw [exec_ldi, indirect_ordinary pointer, loadInto_ordinary dr data]
    · rw [exec_ldi, indirect_ordinary (s := s.withInput xs ys) pointer]
      exact congrArg _ (loadInto_ordinary (s := s.withInput xs ys) dr data)
  | sti sr off =>
    have pointer := ne_of_beq_false quiet
    refine ⟨s.memWrite (s.memPeek (s.pcRel off)) (s.reg sr), ?_, ?_⟩
    · rw [exec_sti, indirect_ordinary pointer]
    · rw [exec_sti, indirect_ordinary (s := s.withInput xs ys) pointer]
      rfl
  | trapGetc | trapIn => cases notConsole
  | _ => exact ⟨_, rfl, rfl⟩

/-- From `s` to `t`, `n` arrivals join the pending input and `k` characters are then missing from its front. -/
def TakesInput (n k : Nat) (s t : State) : Prop :=
  t.pollEnv = s.pollEnv.drop n ∧ t.conIn = (s.conIn ++ (s.pollEnv.take n).flatten).drop k

theorem TakesInput.none {s t : State} (pollEnv : t.pollEnv = s.pollEnv) (conIn : t.conIn = s.conIn) :
    TakesInput 0 0 s t := ⟨pollEnv, by simp [conIn]⟩

/-- Characters dropped before further input joins are dropped from the front of all of it. -/
theorem drop_append_drop (xs ys : List Byte) (k l : Nat) :
    ∃ m ≤ k + l, (xs.drop k ++ ys).drop l = (xs ++ ys).drop m := by
  rcases Nat.le_total k xs.length with h | h
  · exact ⟨k + l, le_rfl, by rw [← List.drop_append_of_le_length h, List.drop_drop]⟩
  · exact ⟨xs.length + l, by omega, by rw [List.drop_eq_nil_of_le h, List.nil_append, List.drop_length_add_append]⟩

/-- One after the other, both counts add up, but for characters that were not there to be dropped. -/
theorem TakesInput.trans {n k n' k' : Nat} {s t u : State} (h : TakesInput n k s t) (h' : TakesInput n' k' t u) :
    ∃ l ≤ k + k', TakesInput (n + n') l s u := by
  obtain ⟨pollEnv, conIn⟩ := h
  obtain ⟨pollEnv', conIn'⟩ := h'
  rw [conIn, pollEnv] at conIn'
  obtain ⟨l, hl, dropped⟩ := drop_append_drop (s.conIn ++ (s.pollEnv.take n).flatten)
    ((s.pollEnv.drop n).take n').flatten k k'
  refine ⟨l, hl, by rw [pollEnv', pollEnv, List.drop_drop], ?_⟩
  rw [conIn', dropped, List.append_assoc, ← List.flatten_append, ← List.take_add]

/-- A read takes an arrival and a character at most, and none away from `KBD_STATUS_ADDR`. -/
theorem memRead_takes (s : State) (a : Word) :
    ∃ n ≤ 1, (a ≠ s.cfg.kbdStatusAddr → n = 0) ∧ TakesInput n n s (s.memRead a).2 := memRead_input s a

/-- An instruction's reads take at most two of each, and none where nothing polls. -/
theorem readState_takes (i : Instr) (s : State) : ∃ n k, n ≤ 2 ∧ k ≤ n ∧ (polls i s = false → n = 0) ∧
    TakesInput n k s (readState i s) := by
  cases quiet : polls i s with
  | false =>
    rw [readState_of_not_polls quiet]
    exact ⟨0, 0, by omega, le_rfl, fun _ => rfl, .none rfl rfl⟩
  | true =>
    cases i with
    | ld | ldr | sti =>
      obtain ⟨n, hn, _, takes⟩ := memRead_takes s _
      exact ⟨n, n, by omega, le_rfl, by simp, takes⟩
    | ldi dr off =>
      obtain ⟨n, hn, _, first⟩ := memRead_takes s (s.pcRel off)
      obtain ⟨n', hn', _, second⟩ := memRead_takes (s.indirect off).2 (s.indirect off).1
      obtain ⟨k, hk, takes⟩ := first.trans second
      exact ⟨n + n', k, by omega, hk, by simp, takes⟩
    | _ => cases quiet

/-- An instruction takes what its reads take, and one character more if it is a GETC or an IN. -/
theorem exec_takes {i : Instr} {s t : State} (h : exec i s = .next t) :
    ∃ n k, n ≤ 2 ∧ k ≤ n + (if readsConsole i = true then 1 else 0) ∧ (polls i s = false → n = 0) ∧
      TakesInput n k s t := by
  obtain ⟨n, k, hn, hk, quiet, takes⟩ := readState_takes i s
  cases effect_of_exec h with
  | result | store => exact ⟨n, k, hn, by omega, quiet, takes⟩
  | served c rest out console input =>
    exact ⟨0, 1, by omega, by simp [console], fun _ => rfl, rfl, by simp [input]⟩
  | held | jump | call | output | halted | fatal =>
    exact ⟨0, 0, by omega, by omega, fun _ => rfl, .none rfl rfl⟩

/-- The word fetched at `KBD_STATUS_ADDR` does not poll again when it executes (R46). -/
theorem polls_memRead_status (s u : State) : polls (decode (s.memRead s.cfg.kbdStatusAddr).1) u = false := by
  rcases opcodeOf_memRead_status s with op | op
  · rw [decode_br op]
    rfl
  · rw [decode_rti op]
    rfl

/-- Settles O60: the admissions by their equations; a step's fetch and instruction take input one after the other, and
where the fetch polls the instruction does not. -/
theorem stepAdmitsTheEnvironmentsMove : Obligations.StepAdmitsTheEnvironmentsMove := by
  refine ⟨admitEnv_nil, fun s m rest => admitEnv_cons s, admitPoll_nil, fun s bs rest => admitPoll_cons s,
    fun s t run h => ?_⟩
  rcases step_cases h with ⟨stopped, _⟩ | ⟨_, _, _, rfl⟩ | ⟨_, _, h⟩
  · exact absurd run stopped
  · exact ⟨admitEnv_env s, rfl, 0, 0, by omega, by omega, fun _ _ => rfl, by simp, by simp⟩
  · obtain ⟨_, cancel, env⟩ := exec_frame h
    obtain ⟨n, hn, ordinary, fetched⟩ := memRead_takes s.admitEnv s.admitEnv.pc
    obtain ⟨n', k', hn', hk', quiet, executed⟩ := exec_takes h
    obtain ⟨k, hk, pollEnv, conIn⟩ := TakesInput.trans (t := s.admitEnv.fetch.2) fetched executed
    rw [admitEnv_pollEnv] at pollEnv conIn
    refine ⟨by rw [env]; simp, by rw [cancel]; simp, n + n', k, ?_, by omega, fun away still => ?_, pollEnv, conIn⟩
    · by_cases atStatus : s.admitEnv.pc = s.admitEnv.cfg.kbdStatusAddr
      · have : n' = 0 := quiet (by rw [fetch_word, atStatus]; exact polls_memRead_status _ _)
        omega
      · have := ordinary atStatus
        omega
    · rw [ordinary (by simpa using away), quiet still]

end Sys2Proof.Machine
end

section
/-! The ignored bits of a word (spec/30_encoding.md R69): what decoding makes of them, and the values encoding gives
them. -/

namespace Sys2Proof

open Machine

variable {w w' m f : Word} {lo n : Nat}

/-! ### Fields under a mask -/

theorem field_and (w m : Word) (lo n : Nat) : field (w &&& m) lo n = field w lo n &&& field m lo n :=
  BitVec.extractLsb'_and

theorem field_or (w m : Word) (lo n : Nat) : field (w ||| m) lo n = field w lo n ||| field m lo n :=
  BitVec.extractLsb'_or

/-- Words that agree under a mask agree in every field that the mask covers. -/
theorem field_eq_of_masked (h : w &&& m = w' &&& m) (covers : field m lo n = BitVec.allOnes n) :
    field w lo n = field w' lo n := by
  have := congrArg (field · lo n) h
  simpa only [field_and, covers, BitVec.and_allOnes] using this

theorem regField_eq_of_masked (h : w &&& m = w' &&& m) (covers : field m lo 3 = BitVec.allOnes 3) :
    regField w lo = regField w' lo := congrArg BitVec.toFin (field_eq_of_masked h covers)

/-- A bit is the field of one bit. -/
theorem field_bit (w : Word) (k : Nat) (hk : k < 16) : field w k 1 = BitVec.ofBool w[k] := by
  rw [field_eq_iff]
  intro i hi
  obtain rfl : i = 0 := by omega
  simp [BitVec.getLsbD_eq_getElem hk]

theorem bit_eq_of_masked {k : Nat} (h : w &&& m = w' &&& m) (hk : k < 16) (covers : m[k] = true) : w[k] = w'[k] := by
  have := congrArg (fun v : Word => v[k]) h
  simpa [covers] using this

/-- Every word's opcode is read. -/
theorem field_readMask (w : Word) : field (readMask w) 12 4 = BitVec.allOnes 4 := by
  cases op : opcodeOf w with
  | add | and | jsr => simp only [readMask, op]; split <;> decide
  | _ => simp only [readMask, op]; decide

/-- Words that agree on the bits that the first one's decoding reads have the same opcode. -/
theorem opcodeOf_eq_of_masked (h : w &&& readMask w = w' &&& readMask w) : opcodeOf w = opcodeOf w' := by
  have top : field w 12 4 = field w' 12 4 := field_eq_of_masked h (field_readMask w)
  exact opcodeBits_injective (by rw [opcodeBits_opcodeOf, opcodeBits_opcodeOf, top])

/-- Words that agree on all bits are one word. -/
theorem eq_of_masked_all (h : w &&& 0xFFFF#16 = w' &&& 0xFFFF#16) : w = w' := by
  have all : (0xFFFF#16 : Word) = BitVec.allOnes 16 := rfl
  rwa [all, BitVec.and_allOnes, BitVec.and_allOnes] at h

/-! ### Decoding -/

/-- The dispatcher of a service reads the vector alone (R67). -/
theorem decode_eq_of_service (op : opcodeOf w = .trap) (op' : opcodeOf w' = .trap) (vec : field w 0 8 = field w' 0 8)
    (service : isServiceVector (field w 0 8) = true) : decode w' = decode w := by
  rw [decode_trap op]
  rcases decodeTrap_cases w with ⟨e, d⟩ | ⟨e, d⟩ | ⟨e, d⟩ | ⟨e, d⟩ | ⟨e, d⟩ | ⟨e, d⟩ | ⟨other, _⟩ <;>
    rw [vec] at *
  · rw [d, decode_trapGetc op' e]
  · rw [d, decode_trapOut op' e]
  · rw [d, decode_trapPuts op' e]
  · rw [d, decode_trapIn op' e]
  · rw [d, decode_trapPutsp op' e]
  · rw [d, decode_trapHalt op' e]
  · rw [service] at other
    cases other

/-- ADD and AND with ignored bits are the register forms. -/
theorem readMask_registerForm (op : opcodeOf w = .add ∨ opcodeOf w = .and) (partly : readMask w ≠ 0xFFFF#16) :
    w[5] = false ∧ readMask w = 0xFFE7#16 := by
  rcases op with op | op <;> cases form : w[5] <;> simp [readMask, op, form] at partly ⊢

/-- JSR's opcode with ignored bits is JSRR. -/
theorem readMask_jsrr (op : opcodeOf w = .jsr) (partly : readMask w ≠ 0xFFFF#16) :
    w[11] = false ∧ readMask w = 0xF9C0#16 := by
  cases form : w[11] <;> simp [readMask, op, form] at partly ⊢

/-- Words that agree on the bits that are read decode to the same instruction, or to two that are fatal for one cause
and differ in the word on record (R69, log 9). -/
theorem decode_of_masked (h : w &&& readMask w = w' &&& readMask w) : decode w' = decode w ∨
    ∃ kind, fatalKind (decode w) = some kind ∧ fatalKind (decode w') = some kind := by
  have op' := (opcodeOf_eq_of_masked h).symm
  by_cases full : readMask w = 0xFFFF#16
  · rw [full] at h
    exact .inl (congrArg decode (eq_of_masked_all h).symm)
  cases op : opcodeOf w with
  | br | ld | st | ldr | str | ldi | sti | lea => exact absurd (by simp [readMask, op]) full
  | add =>
    obtain ⟨form, mask⟩ := readMask_registerForm (.inl op) full
    rw [mask] at h
    rw [op] at op'
    have form' : w'[5] = false := (bit_eq_of_masked h (by decide) (by decide)).symm.trans form
    rw [decode_addReg op form, decode_addReg op' form', regField_eq_of_masked h (lo := 9) (by decide),
      regField_eq_of_masked h (lo := 6) (by decide), regField_eq_of_masked h (lo := 0) (by decide)]
    exact .inl rfl
  | and =>
    obtain ⟨form, mask⟩ := readMask_registerForm (.inr op) full
    rw [mask] at h
    rw [op] at op'
    have form' : w'[5] = false := (bit_eq_of_masked h (by decide) (by decide)).symm.trans form
    rw [decode_andReg op form, decode_andReg op' form', regField_eq_of_masked h (lo := 9) (by decide),
      regField_eq_of_masked h (lo := 6) (by decide), regField_eq_of_masked h (lo := 0) (by decide)]
    exact .inl rfl
  | jsr =>
    obtain ⟨form, mask⟩ := readMask_jsrr op full
    rw [mask] at h
    rw [op] at op'
    have form' : w'[11] = false := (bit_eq_of_masked h (by decide) (by decide)).symm.trans form
    rw [decode_jsrr op form, decode_jsrr op' form', regField_eq_of_masked h (lo := 6) (by decide)]
    exact .inl rfl
  | not =>
    simp only [readMask, op] at h op'
    rw [decode_not op, decode_not op', regField_eq_of_masked h (lo := 9) (by decide),
      regField_eq_of_masked h (lo := 6) (by decide)]
    exact .inl rfl
  | jmp =>
    simp only [readMask, op] at h op'
    rw [decode_jmp op, decode_jmp op', regField_eq_of_masked h (by decide)]
    exact .inl rfl
  | rti | res =>
    refine .inr ⟨.reservedOpcode, ?_⟩
    rw [fatalKind_reserved_iff, fatalKind_reserved_iff, opcode_decode, opcode_decode, op', op]
    decide
  | trap =>
    simp only [readMask, op] at h op'
    have vec : field w 0 8 = field w' 0 8 := field_eq_of_masked h (by decide)
    cases service : isServiceVector (field w 0 8) with
    | true => exact .inl (decode_eq_of_service op op' vec service)
    | false =>
      refine .inr ⟨.illegalTrapVector, (fatalKind_decode_illegal_iff w).mpr ⟨op, service⟩, ?_⟩
      exact (fatalKind_decode_illegal_iff w').mpr ⟨op', vec ▸ service⟩

/-- Settles O4: the two words decode alike, or both are fatal for one cause. -/
theorem ignoredBitsChangeNothing : Obligations.IgnoredBitsChangeNothing := by
  intro w w' s h
  rcases decode_of_masked h with same | ⟨kind, raises, raises'⟩
  · obtain ⟨t, ht, _⟩ := exec_effect (decode w) s
    exact ⟨t, t, ht, same ▸ ht, rfl, rfl⟩
  · exact ⟨_, _, exec_decode_fatal raises s, exec_decode_fatal raises' s, rfl, rfl⟩

/-! ### Encoding -/

/-- A field that the mask covers and the fill leaves alone is the word's own. -/
theorem field_kept (w : Word) (covers : field m lo n = BitVec.allOnes n) (clear : field f lo n = 0#n) :
    field ((w &&& m) ||| f) lo n = field w lo n := by
  rw [field_or, field_and, covers, clear, BitVec.and_allOnes, BitVec.or_zero]

/-- A field that the mask clears is the fill's. -/
theorem field_filled (w : Word) (cleared : field m lo n = 0#n) : field ((w &&& m) ||| f) lo n = field f lo n := by
  rw [field_or, field_and, cleared, BitVec.and_zero, BitVec.zero_or]

/-! Bits 11:0 from the fields of the formats (R62). -/

theorem field_two_registers (v : Word) : field v 9 3 ++ field v 6 3 ++ field v 0 6 = field v 0 12 := by
  rw [field_append v 6 3 3]
  exact field_append v 0 6 6

theorem field_immediate_form (v : Word) : field v 9 3 ++ field v 6 3 ++ field v 5 1 ++ field v 0 5 = field v 0 12 := by
  rw [field_append v 6 3 3, field_append v 5 6 1]
  exact field_append v 0 7 5

theorem field_register_form (v : Word) :
    field v 9 3 ++ field v 6 3 ++ (field v 5 1 ++ field v 3 2) ++ field v 0 3 = field v 0 12 := by
  rw [field_append v 3 1 2, field_append v 6 3 3, field_append v 3 6 3]
  exact field_append v 0 9 3

theorem field_jsrr_form (v : Word) :
    (field v 11 1 ++ field v 9 2) ++ field v 6 3 ++ field v 0 6 = field v 0 12 := by
  rw [field_append v 9 1 2]
  exact field_two_registers v

/-- A word all of whose bits are read is the encoding of what it decodes to. -/
theorem encode_decode_of_full (full : readMask w = 0xFFFF#16) : encode (decode w) = w := by
  refine encode_eq (opcode_decode w) ?_
  cases op : opcodeOf w with
  | br | ld | st | ldi | sti | lea => simp only [decode, op]; exact field_append w 0 3 9
  | ldr | str => simp only [decode, op]; exact field_two_registers w
  | add =>
    have form : w[5] = true := by simpa [readMask, op] using full
    have bit : field w 5 1 = 1#1 := by rw [field_bit w 5 (by decide), form]; rfl
    rw [decode_addImm op form, ← field_immediate_form, bit]
    rfl
  | and =>
    have form : w[5] = true := by simpa [readMask, op] using full
    have bit : field w 5 1 = 1#1 := by rw [field_bit w 5 (by decide), form]; rfl
    rw [decode_andImm op form, ← field_immediate_form, bit]
    rfl
  | jsr =>
    have form : w[11] = true := by simpa [readMask, op] using full
    have bit : field w 11 1 = 1#1 := by rw [field_bit w 11 (by decide), form]; rfl
    rw [decode_jsr op form, ← field_append w 0 1 11, bit]
    rfl
  | not | jmp | rti | res | trap => simp [readMask, op] at full

/-- The word with its ignored bits at the values that an assembler emits (R69). -/
def canonical (w : Word) : Word := (w &&& readMask w) ||| canonicalFill w

theorem opcodeOf_canonical (w : Word) : opcodeOf (canonical w) = opcodeOf w := by
  have clear : field (canonicalFill w) 12 4 = 0#4 := by unfold canonicalFill; split <;> decide
  apply opcodeBits_injective
  rw [opcodeBits_opcodeOf, opcodeBits_opcodeOf, canonical, field_kept w (field_readMask w) clear]

theorem canonicalFill_eq_zero (op : opcodeOf w ≠ .not) : canonicalFill w = 0x0000#16 := if_neg op

/-- Bits 11:0 of a canonical word of the register forms of ADD and AND. -/
theorem field_canonical_registerForm (op : opcodeOf w = .add ∨ opcodeOf w = .and) (partly : readMask w ≠ 0xFFFF#16) :
    field (canonical w) 0 12 = field w 9 3 ++ field w 6 3 ++ 0b000#3 ++ field w 0 3 := by
  obtain ⟨form, mask⟩ := readMask_registerForm op partly
  have fill := canonicalFill_eq_zero (w := w) (by rcases op with op | op <;> simp [op])
  rw [canonical, mask, fill, ← field_register_form, field_kept w (lo := 9) (by decide) (by decide),
    field_kept w (lo := 6) (by decide) (by decide), field_kept w (lo := 5) (by decide) (by decide),
    field_kept w (lo := 0) (by decide) (by decide), field_filled w (lo := 3) (by decide), field_bit w 5 (by decide),
    form]
  rfl

/-- Settles O5: where every bit is read the word itself is encoded; each other form keeps its fields, and what stands
between them is the fill. -/
theorem encodeOfDecodeIsTheCanonicalWord : Obligations.EncodeOfDecodeIsTheCanonicalWord := by
  intro w notRti notRes service
  show encode (decode w) = canonical w
  by_cases full : readMask w = 0xFFFF#16
  · have notNot : opcodeOf w ≠ .not := fun op => by simp [readMask, op] at full
    rw [encode_decode_of_full full, canonical, full, canonicalFill_eq_zero notNot, BitVec.or_zero]
    exact (BitVec.and_allOnes (x := w)).symm
  refine encode_eq ((opcode_decode w).trans (opcodeOf_canonical w).symm) ?_
  cases op : opcodeOf w with
  | br | ld | st | ldr | str | ldi | sti | lea => exact absurd (by simp [readMask, op]) full
  | rti => exact absurd op notRti
  | res => exact absurd op notRes
  | add =>
    rw [decode_addReg op (readMask_registerForm (.inl op) full).1, field_canonical_registerForm (.inl op) full]
    rfl
  | and =>
    rw [decode_andReg op (readMask_registerForm (.inr op) full).1, field_canonical_registerForm (.inr op) full]
    rfl
  | jsr =>
    obtain ⟨form, mask⟩ := readMask_jsrr op full
    rw [decode_jsrr op form, canonical, mask, canonicalFill_eq_zero (by simp [op]), ← field_jsrr_form,
      field_kept w (lo := 11) (by decide) (by decide), field_filled w (lo := 9) (by decide),
      field_kept w (lo := 6) (by decide) (by decide), field_filled w (lo := 0) (by decide), field_bit w 11 (by decide),
      form]
    rfl
  | jmp =>
    have mask : readMask w = 0xF1C0#16 := by simp [readMask, op]
    rw [decode_jmp op, canonical, mask, canonicalFill_eq_zero (by simp [op]), ← field_two_registers,
      field_filled w (lo := 9) (by decide), field_kept w (lo := 6) (by decide) (by decide),
      field_filled w (lo := 0) (by decide)]
    rfl
  | not =>
    have mask : readMask w = 0xFFC0#16 := by simp [readMask, op]
    have fill : canonicalFill w = 0x003F#16 := if_pos op
    rw [decode_not op, canonical, mask, fill, ← field_two_registers, field_kept w (lo := 9) (by decide) (by decide),
      field_kept w (lo := 6) (by decide) (by decide), field_filled w (lo := 0) (by decide)]
    rfl
  | trap =>
    have mask : readMask w = 0xF0FF#16 := by simp [readMask, op]
    rw [decode_trap op, canonical, mask, canonicalFill_eq_zero (by simp [op]), ← field_append _ 0 4 8,
      field_filled w (lo := 8) (by decide), field_kept w (lo := 0) (by decide) (by decide)]
    rcases decodeTrap_cases w with ⟨e, d⟩ | ⟨e, d⟩ | ⟨e, d⟩ | ⟨e, d⟩ | ⟨e, d⟩ | ⟨e, d⟩ | ⟨other, _⟩
    case inr.inr.inr.inr.inr.inr =>
      rw [show isServiceVector (field w 0 8) = true from service op] at other
      cases other
    all_goals
      rw [d, e]
      decide

end Sys2Proof
end
